-- ==== Sys2Proof/Word.lean ====
section
/-! DEFINITION. The two word types of the block: the byte (spec/00_scope.md R8) and the 16-bit command word
(spec/30_encoding.md R70). Both are unsigned; nothing in the block is signed (R8). -/

namespace Sys2Proof

/-- A byte: 8 bits, bit 0 the least significant (R8). -/
abbrev Byte := BitVec 8

/-- A command word: 16 bits, bit 15 the most significant (R70). -/
abbrev Cmd := BitVec 16

end Sys2Proof
end

