-- ==== Sys2Proof/Config.lean ====
section
/-! DEFINITION. The configuration record: what is fixed before reset and never written (spec/10_state.md R21): the sizes
of spec/00_scope.md R6, the parameters of its section 4, and the two OPEN tables. The glyph, geometry and serialisation
tables, also configuration by R31, stand in Sys2Proof/Machine/Geometry.lean. -/

namespace Sys2Proof

/-- The sizes of the block, the part of the configuration record whose values the source (R6) or a decision of the spec
fixes. A value stands here and nowhere else in the model: every type and operation takes it from this record. -/
structure Sizes where
  /-- `BUF_LEN`, bytes in the LCD Buffer (R6). -/
  bufLen : Nat := 13
  /-- `NPOS`, digit positions (R6). -/
  npos : Nat := 8
  /-- `NFLAG`, segment flags of a position (R6). -/
  nflag : Nat := 8
  /-- `GLYPH_H`, rows of a glyph (R6). -/
  glyphH : Nat := 5
  /-- `NIND`, indicators (spec/10_state.md R28, decision D10). -/
  nind : Nat := 5
  /-- `GLYPH_W`, columns of a glyph (spec/42_render.md R151, decision D15). -/
  glyphW : Nat := 5
  /-- `LEFT_MARGIN`, columns left of the digits (spec/42_render.md R156, decision D16). -/
  leftMargin : Nat := 3
  /-- `FRAME_H`, rows of the frame (spec/42_render.md R156). -/
  frameH : Nat := 5
  /-- `FRAME_W = LEFT_MARGIN + NPOS * GLYPH_W` (spec/42_render.md R156). -/
  frameW : Nat := leftMargin + npos * glyphW
deriving DecidableEq, Repr

/-- The sizes with the values the spec gives them (R6 and the table of spec/00_scope.md section 4). -/
abbrev Sizes.spec : Sizes := {}

abbrev bufLen : Nat := Sizes.spec.bufLen
abbrev npos : Nat := Sizes.spec.npos
abbrev nflag : Nat := Sizes.spec.nflag
abbrev glyphH : Nat := Sizes.spec.glyphH
abbrev nind : Nat := Sizes.spec.nind
abbrev glyphW : Nat := Sizes.spec.glyphW
abbrev leftMargin : Nat := Sizes.spec.leftMargin
abbrev frameH : Nat := Sizes.spec.frameH
abbrev frameW : Nat := Sizes.spec.frameW

/-- One entry of a map: an unsigned 8-bit byte-index and an 8-bit bit-mask (spec/10_state.md R26, decision D7).
Printed `0xBBMM` in the spec (R77); it is a pair and never a 16-bit access. -/
structure MapEntry where
  byte : Byte
  mask : Byte
deriving DecidableEq, Repr, Inhabited

/-- The Segment Address Map: `NPOS x NFLAG` entries, indexed by position and flag number (spec/10_state.md R26). -/
abbrev Segmap := Vector (Vector MapEntry nflag) npos

/-- The indicator map: `NIND` entries (spec/10_state.md R29). -/
abbrev Indmap := Vector MapEntry nind

/-- The configuration record of one instance of the block, fixed before reset (spec/00_scope.md section 4, R6, R7). -/
structure Config where
  /-- The sizes (R6), "with these values": they are the lengths in the types of the maps and of the state, so the record
  holds them with a proof of their values (log entry 8). -/
  sizes : Sizes := Sizes.spec
  sizes_spec : sizes = Sizes.spec := by rfl
  /-- `SEGMAP` (R26), OPEN in the spec. -/
  segmap : Segmap
  /-- `INDMAP` (R29), OPEN in the spec. -/
  indmap : Indmap
  /-- `LCDM_RESET`, the buffer's contents after reset (R40). -/
  lcdmReset : Vector Byte bufLen
  /-- `TICK_HZ`, allowed 1 to 4 (spec/60_exceptions.md R207). No rule depends on it. -/
  tickHz : Nat
deriving DecidableEq, Repr

/-- OPEN: the source requires the Segment Address Map and does not print it (R7, N1, decision D11). No body: nothing
can be proved of its entries (log entry 4). -/
opaque Config.openSegmap : Segmap

/-- OPEN: the indicator map (R7, N2, decision D12). No body (log entry 4). -/
opaque Config.openIndmap : Indmap

/-- The default `LCDM_RESET`: 13 zero bytes (R40, decision D19; log entry 5). -/
def Config.lcdmResetDefault : Vector Byte bufLen := Vector.replicate bufLen 0x00#8

/-- The instance `State.reset` starts: open maps, the spec's defaults for the rest. -/
def Config.configured : Config :=
  { segmap := Config.openSegmap
    indmap := Config.openIndmap
    lcdmReset := Config.lcdmResetDefault
    tickHz := 1 }

end Sys2Proof
end

