-- ==== Sys2Proof/Syntax.lean ====
section
/-! DEFINITION. The seven commands, one constructor for each row of spec/opcode_table.json (spec/30_encoding.md R74). -/

namespace Sys2Proof

/-- A command. `idx` is the index operand, an unsigned number 0 to 15 (R72); `data` the byte operand. Fields a format
ignores are no part of a command (R73). -/
inductive Instr where
  /-- `NOP` (spec/40_buffer_access.md R100). -/
  | nop
  /-- `LCDWR idx, data` (spec/40_buffer_access.md R101). -/
  | lcdwr (idx : Nat) (data : Byte)
  /-- `LCDRD idx` (spec/40_buffer_access.md R102). -/
  | lcdrd (idx : Nat)
  /-- `MASKRD idx` (spec/41_decode.md R129). -/
  | maskrd (idx : Nat)
  /-- `INDRD` (spec/41_decode.md R130). -/
  | indrd
  /-- `DECODE` (spec/41_decode.md R128). -/
  | decode
  /-- `RENDER` (spec/42_render.md R165). -/
  | render
deriving DecidableEq, Repr

/-- The three formats of R70. -/
inductive Format where
  /-- `op`, `idx`, `data` used. -/
  | w
  /-- `op`, `idx` used; `data` ignored. -/
  | x
  /-- `op` used; `idx`, `data` ignored. -/
  | z
deriving DecidableEq, Repr

/-- The format of each command (R70, R74). -/
def Instr.format : Instr → Format
  | .nop => .z
  | .lcdwr _ _ => .w
  | .lcdrd _ => .x
  | .maskrd _ => .x
  | .indrd => .z
  | .decode => .z
  | .render => .z

end Sys2Proof
end

