-- ==== Sys2Proof/WellFormed.lean ====
section
/-! DEFINITION. Well-formed commands (the operand fits its field, spec/30_encoding.md R72, R80) and well-formed maps
(`WF_SEGMAP`, spec/10_state.md R27; `WF_INDMAP`, R30). The block never checks a map (spec/70_reset_and_hazards.md
R246): well-formedness is a premise of claims about what is displayed. -/

namespace Sys2Proof

/-- An index operand fits the 4-bit field `idx` (R72; the assembler rejects `idx > 15`, R80). -/
def idxFits (idx : Nat) : Bool := decide (idx ≤ 15)

/-- A command each of whose operands fits its field. A data operand is a byte and always fits. -/
def Instr.wf : Instr → Bool
  | .nop => true
  | .lcdwr idx _ => idxFits idx
  | .lcdrd idx => idxFits idx
  | .maskrd idx => idxFits idx
  | .indrd => true
  | .decode => true
  | .render => true

/-- The entry's byte-index is below the buffer length (R27 (a), R30 (a)). -/
abbrev MapEntry.InRange (e : MapEntry) : Prop := e.byte.toNat < bufLen

/-- The mask has exactly one bit set (R27 (b), R30 (b)). -/
abbrev OneHot (m : Byte) : Prop :=
  m ∈ [0x01#8, 0x02#8, 0x04#8, 0x08#8, 0x10#8, 0x20#8, 0x40#8, 0x80#8]

/-- R27 (a): every `byte` field is in range. -/
abbrev Segmap.InRange (m : Segmap) : Prop := ∀ (p : Fin npos) (f : Fin nflag), (m[p][f]).InRange
/-- R27 (b): every `mask` field has exactly one bit set. -/
abbrev Segmap.AllOneHot (m : Segmap) : Prop := ∀ (p : Fin npos) (f : Fin nflag), OneHot (m[p][f]).mask
/-- R27 (c): the 64 pairs are pairwise distinct. -/
abbrev Segmap.Distinct (m : Segmap) : Prop :=
  ∀ (p : Fin npos) (f : Fin nflag) (q : Fin npos) (g : Fin nflag), m[p][f] = m[q][g] → p = q ∧ f = g

/-- `WF_SEGMAP` (R27). -/
abbrev Segmap.WF (m : Segmap) : Prop := m.InRange ∧ m.AllOneHot ∧ m.Distinct

/-- R30 (a). -/
abbrev Indmap.InRange (m : Indmap) : Prop := ∀ k : Fin nind, (m[k]).InRange
/-- R30 (b). -/
abbrev Indmap.AllOneHot (m : Indmap) : Prop := ∀ k : Fin nind, OneHot (m[k]).mask
/-- R30 (c): the `NIND` pairs are pairwise distinct. -/
abbrev Indmap.Distinct (m : Indmap) : Prop := ∀ k l : Fin nind, m[k] = m[l] → k = l
/-- R30 (d): no indicator entry equals a segment entry ("outside the digit map"). -/
abbrev Indmap.Outside (m : Indmap) (sm : Segmap) : Prop :=
  ∀ (k : Fin nind) (p : Fin npos) (f : Fin nflag), m[k] ≠ sm[p][f]

/-- `WF_INDMAP` with respect to a segment map (R30). -/
abbrev Indmap.WF (m : Indmap) (sm : Segmap) : Prop :=
  m.InRange ∧ m.AllOneHot ∧ m.Distinct ∧ m.Outside sm

/-- Both maps of a configuration are well-formed: the premise of claims about what is displayed (R246). -/
abbrev Config.MapsWF (cfg : Config) : Prop := cfg.segmap.WF ∧ cfg.indmap.WF cfg.segmap

/-- `TICK_HZ` is one of the allowed values 1 to 4 (spec/60_exceptions.md R207). -/
abbrev Config.TickWF (cfg : Config) : Prop := 1 ≤ cfg.tickHz ∧ cfg.tickHz ≤ 4

end Sys2Proof
end

