-- ==== Sys2Proof/Decode.lean ====
section
/-! DEFINITION. The command word: fields (spec/30_encoding.md R70, R72), decoder (R74, R75, R73) and encoder
(canonical words, R73, R80). -/

namespace Sys2Proof

/-- `op = cmd[15:12]` (R70). -/
def cmdOp (w : Cmd) : BitVec 4 := w.extractLsb' 12 4

/-- `idx = zext_8(cmd[11:8])`, an unsigned number 0 to 15 (R70, R72). -/
def cmdIdx (w : Cmd) : Nat := (w.extractLsb' 8 4).toNat

/-- `data = cmd[7:0]` (R70, R72). -/
def cmdData (w : Cmd) : Byte := w.extractLsb' 0 8

/-- Why a word is no command. -/
inductive Reject where
  /-- The operation code is one of the reserved `0x7` to `0xF` (R75). The block absorbs such a word. -/
  | reservedOp (op : BitVec 4)
deriving DecidableEq, Repr

/-- What the decoder answers. -/
inductive Decoded where
  | instr (i : Instr)
  | rejected (r : Reject)
deriving DecidableEq, Repr

/-- The decoder, total on all 16-bit words: the operation code selects the row (R74), ignored fields are not looked at
(R73), reserved operation codes are rejected by name (R75). -/
def decode (w : Cmd) : Decoded :=
  match (cmdOp w).toNat with
  | 0 => .instr .nop
  | 1 => .instr (.lcdwr (cmdIdx w) (cmdData w))
  | 2 => .instr (.lcdrd (cmdIdx w))
  | 3 => .instr (.maskrd (cmdIdx w))
  | 4 => .instr .indrd
  | 5 => .instr .decode
  | 6 => .instr .render
  | _ => .rejected (.reservedOp (cmdOp w))

/-- A word from its three fields (R70). -/
def packCmd (op : BitVec 4) (idx : Nat) (data : Byte) : Cmd :=
  op ++ (BitVec.ofNat 4 idx ++ data)

/-- The operation code of each command (R74). -/
def Instr.op : Instr → BitVec 4
  | .nop => 0x0#4
  | .lcdwr _ _ => 0x1#4
  | .lcdrd _ => 0x2#4
  | .maskrd _ => 0x3#4
  | .indrd => 0x4#4
  | .decode => 0x5#4
  | .render => 0x6#4

/-- The encoder: the canonical word, ignored fields zero (R73, R80). -/
def encode (i : Instr) : Cmd :=
  match i with
  | .nop => packCmd i.op 0 0x00#8
  | .lcdwr idx data => packCmd i.op idx data
  | .lcdrd idx => packCmd i.op idx 0x00#8
  | .maskrd idx => packCmd i.op idx 0x00#8
  | .indrd => packCmd i.op 0 0x00#8
  | .decode => packCmd i.op 0 0x00#8
  | .render => packCmd i.op 0 0x00#8

/-- A word given as a number of `nbits` bits, bit 0 the least significant; every bit above `nbits` is 0. A command is
one 16-bit word handed over whole, so there is no byte order (R54, R70; log entry 16). -/
def tableWord (nbits w : Nat) : Cmd := BitVec.ofNat 16 (w % 2 ^ nbits)

/-- The command the decoder reads from a word numbered as spec/opcode_table.json numbers it. -/
def decodeTableWord (nbits w : Nat) : Option Instr :=
  match decode (tableWord nbits w) with
  | .instr i => some i
  | .rejected _ => none

end Sys2Proof
end

