-- ==== Sys2Proof/Machine/Geometry.lean ====
section
/-! DEFINITION. The read-only glyph, geometry and serialisation tables (spec/10_state.md R31; values of
spec/42_render.md R152, R157, R159, R163, decisions D15 to D18) and the flag and indicator layouts (spec/10_state.md
R25, R28). They are configuration, not state (R21), held as constants (log entry 8). -/

namespace Sys2Proof.Machine

/-- A segment flag (R25). -/
inductive SegFlag where
  | segA | segB | segC | segD | segE | segF | segG | segDP
deriving DecidableEq, Repr

/-- The flag number (R25). -/
def SegFlag.number : SegFlag → Fin nflag
  | .segA => ⟨0, by decide⟩ | .segB => ⟨1, by decide⟩ | .segC => ⟨2, by decide⟩ | .segD => ⟨3, by decide⟩
  | .segE => ⟨4, by decide⟩ | .segF => ⟨5, by decide⟩ | .segG => ⟨6, by decide⟩ | .segDP => ⟨7, by decide⟩

/-- The mask bit of a flag, `1 << f`: A=0x01 ... G=0x40, DP=0x80, "must be reproduced exactly" (R25). -/
def SegFlag.bit : SegFlag → Byte
  | .segA => 0x01#8 | .segB => 0x02#8 | .segC => 0x04#8 | .segD => 0x08#8
  | .segE => 0x10#8 | .segF => 0x20#8 | .segG => 0x40#8 | .segDP => 0x80#8

/-- The flags in ascending number. -/
def SegFlag.all : List SegFlag := [.segA, .segB, .segC, .segD, .segE, .segF, .segG, .segDP]

/-- An indicator (R28, decision D10). -/
inductive Indicator where
  | am | pm | sign | colon | batdiv
deriving DecidableEq, Repr

/-- The indicator number `k` (R28). -/
def Indicator.number : Indicator → Fin nind
  | .am => ⟨0, by decide⟩ | .pm => ⟨1, by decide⟩ | .sign => ⟨2, by decide⟩ | .colon => ⟨3, by decide⟩
  | .batdiv => ⟨4, by decide⟩

/-- The `IND` bit of an indicator (R28). -/
def Indicator.bit : Indicator → Byte
  | .am => 0x01#8 | .pm => 0x02#8 | .sign => 0x04#8 | .colon => 0x08#8 | .batdiv => 0x10#8

/-- The indicators in ascending number. -/
def Indicator.all : List Indicator := [.am, .pm, .sign, .colon, .batdiv]

/-- The digit positions in ascending number. -/
def positions : List (Fin npos) := List.finRange npos

/-- The space character `0x20`. -/
def space : Byte := 0x20#8

/-- The cells (row, column) of a glyph that a segment owns (R152, decision D15). -/
def SegFlag.cells : SegFlag → List (Nat × Nat)
  | .segA => [(0, 1), (0, 2)]
  | .segB => [(1, 3)]
  | .segC => [(3, 3)]
  | .segD => [(4, 1), (4, 2)]
  | .segE => [(3, 0)]
  | .segF => [(1, 0)]
  | .segG => [(2, 1), (2, 2)]
  | .segDP => [(4, 4)]

/-- The character a lit segment shows in its cells (R152): `-`, `|` or `.`. -/
def SegFlag.char : SegFlag → Byte
  | .segA => 0x2D#8 | .segB => 0x7C#8 | .segC => 0x7C#8 | .segD => 0x2D#8
  | .segE => 0x7C#8 | .segF => 0x7C#8 | .segG => 0x2D#8 | .segDP => 0x2E#8

/-- The first frame column of a position: `col(p) = LEFT_MARGIN + GLYPH_W * (NPOS - 1 - p)` (spec/00_scope.md R11,
spec/42_render.md R157): position 7 leftmost, position 0 rightmost. -/
def col (p : Fin npos) : Nat := leftMargin + glyphW * (npos - 1 - p.val)

/-- `INDGLYPH[k]`: the cells (row, column, character) of an indicator in frame coordinates (R159, decision D17). -/
def Indicator.glyph : Indicator → List (Nat × Nat × Byte)
  | .am => [(0, 0, 0x41#8), (0, 1, 0x4D#8)]
  | .pm => [(1, 0, 0x50#8), (1, 1, 0x4D#8)]
  | .sign => [(2, 0, 0x2D#8)]
  | .colon => [(1, 12, 0x6F#8), (3, 12, 0x6F#8)]
  | .batdiv => [(4, 0, 0x2F#8)]

/-- `FRAME_PREFIX`, bytes `1B 5B 48` (R163, decision D18). -/
def framePrefix : List Byte := [0x1B#8, 0x5B#8, 0x48#8]

/-- `ROW_EOL`, bytes `0D 0A` (R163, decision D18). -/
def rowEol : List Byte := [0x0D#8, 0x0A#8]

/-- The cell codes the frame can hold (spec/10_state.md R36). -/
def cellCodes : List Byte := [0x20#8, 0x2D#8, 0x7C#8, 0x2E#8, 0x41#8, 0x4D#8, 0x50#8, 0x6F#8, 0x2F#8]

/-- The frame buffer: `FRAME_H` rows of `FRAME_W` cells, row 0 the top, column 0 the left (spec/10_state.md R36). -/
abbrev Frame := Vector (Vector Byte frameW) frameH

/-- The frame with a space in every cell (R40). -/
def blankFrame : Frame := Vector.replicate frameH (Vector.replicate frameW space)

end Sys2Proof.Machine
end

