-- ==== Sys2Proof/Machine/Memory.lean ====
section
/-! DEFINITION. The block's one memory, the LCD Buffer `LCDM` (spec/20_memory.md R50): indices 0 to 12, one byte each,
byte access only (R54, R56). Held as a list of (index, byte) cells in one canonical form (log entry 9). -/

namespace Sys2Proof.Machine

/-- The LCD Buffer as a list of (index, byte) cells; an index not listed holds `Memory.unlisted`. -/
abbrev Memory := List Host.Cell

/-- What an index that is not listed holds: the spec's default reset contents, `0x00` (spec/10_state.md R40). A
non-default `LCDM_RESET` is listed at reset. -/
def Memory.unlisted : Byte := 0x00#8

/-- The canonical form: indices strictly rising, all below the buffer length, no cell equal to `unlisted`. -/
def Memory.wf : Memory → Bool
  | [] => true
  | (a, v) :: m => decide (a < bufLen) && decide (v ≠ Memory.unlisted) && m.all (fun c => decide (a < c.1)) && Memory.wf m

/-- The byte stored at an index, in range or not. -/
def Memory.get : Memory → Nat → Byte
  | [], _ => Memory.unlisted
  | (b, v) :: m, a => if b = a then v else Memory.get m a

/-- Every cell of one index taken out. -/
def Memory.erase (a : Nat) : Memory → Memory
  | [] => []
  | (b, v) :: m => if b = a then Memory.erase a m else (b, v) :: Memory.erase a m

/-- A cell put before the first cell of a higher index. -/
def Memory.insert (a : Nat) (v : Byte) : Memory → Memory
  | [] => [(a, v)]
  | (b, w) :: m => if a < b then (a, v) :: (b, w) :: m else (b, w) :: Memory.insert a v m

/-- One byte stored; storing `unlisted` takes the cell out. -/
def Memory.put (m : Memory) (a : Nat) (v : Byte) : Memory :=
  if v = Memory.unlisted then Memory.erase a m else Memory.insert a v (Memory.erase a m)

/-- `MemRead(i, 1)`: `LCDM[i]` when `i < BUF_LEN`, else `0x00`; never faults (R52). -/
def Memory.read (m : Memory) (i : Nat) : Byte := if i < bufLen then m.get i else 0x00#8

/-- `MemWrite(i, 1, v)`: `LCDM[i] <- v` when `i < BUF_LEN`, else nothing; all 8 bits stored; never faults (R53). -/
def Memory.write (m : Memory) (i : Nat) (v : Byte) : Memory := if i < bufLen then m.put i v else m

/-- The memory that holds the bytes of a list from index `a` on. -/
def Memory.ofBytes (a : Nat) : List Byte → Memory
  | [] => []
  | v :: bs => if v = Memory.unlisted then Memory.ofBytes (a + 1) bs else (a, v) :: Memory.ofBytes (a + 1) bs

end Sys2Proof.Machine
end

