-- ==== Sys2Proof/Machine/State.lean ====
section
/-! DEFINITION. The state of the block (spec/10_state.md R20), the outcomes a step can stop with (none is ever used:
spec/60_exceptions.md R200, R202), and the state after reset (spec/10_state.md R40, spec/70_reset_and_hazards.md
R230). -/

namespace Sys2Proof.Machine

/-- The reasons a step can fault: none. The block raises no exception and every command is total (R200); a step
"never returns a fault" (R202). The type is empty, so no definition can answer one (log entry 7). -/
inductive Fault where
deriving DecidableEq, Repr

/-- The reasons a step can be refused. -/
inductive Refusal where
  /-- Raised only by an arm of `exec` whose instruction has no meaning yet; there is no such arm (R200: every command
  is total). Safe. -/
  | notModelled (mnemonic : String)
deriving DecidableEq, Repr

/-- The state of the block. `lcdm`, `mask`, `ind`, `frame`, `out` are the five objects of R20. `resp`, `pending` and
`cfg` are the model's own fields (log entries 2, 1, 3). -/
structure State where
  /-- Configuration of this instance, never written (R21, R231). -/
  cfg : Config
  /-- `LCDM`, the LCD Buffer (R22). -/
  lcdm : Memory
  /-- `MASK[0..7]`, the segment-mask latches (R34). -/
  mask : Vector Byte npos
  /-- `IND`, the indicator latch, bits 5 to 7 always 0 (R35). -/
  ind : Byte
  /-- `FRAME`, the frame buffer (R36). -/
  frame : Frame
  /-- `OUT`, the emitted frames, oldest first (R37). -/
  out : List (List Byte)
  /-- The response of the last command completed (R71). -/
  resp : Byte
  /-- The command words issued and not yet run, oldest first (R24, R59). -/
  pending : List Cmd
deriving DecidableEq, Repr

/-- The state after reset of an instance with configuration `cfg`: `LCDM <- LCDM_RESET`, masks and indicators zero,
every frame cell a space, `OUT` empty (R40, R230). `resp` and `pending`: DESIGN CHOICE, log entries 2 and 1. -/
def State.resetWith (cfg : Config) : State :=
  { cfg := cfg
    lcdm := Memory.ofBytes 0 cfg.lcdmReset.toList
    mask := Vector.replicate npos 0x00#8
    ind := 0x00#8
    frame := blankFrame
    out := []
    resp := 0x00#8
    pending := [] }

/-- The machine right after reset: the spec's default `LCDM_RESET` and the open maps. -/
def State.reset : State := State.resetWith Config.configured

end Sys2Proof.Machine
end

