-- ==== Sys2Proof/Machine/Operands.lean ====
section
/-! DEFINITION. The operand forms. Direct index (spec/40_buffer_access.md R105), table-indirect (spec/41_decode.md
R126) with the bit test (R120), and the position index of MASKRD (R129). -/

namespace Sys2Proof.Machine

/-- The effective buffer index of LCDWR and LCDRD: the `idx` field itself, no base, offset or scaling (R105). -/
def directIndex (idx : Nat) : Nat := idx

/-- The effective buffer index of a map entry: its `byte` field, unsigned, as it stands (R72, R126). -/
def entryIndex (e : MapEntry) : Nat := e.byte.toNat

/-- `Test(b, m)`: `(MemRead(b, 1) & m) != 0`, false whenever `b >= BUF_LEN` (R120); any mask value (R123). -/
def test (m : Memory) (e : MapEntry) : Bool := m.read (entryIndex e) &&& e.mask != 0x00#8

/-- `MASK[p]` for `p <= 7`, else `0x00`: no such position (R129). -/
def maskAt (masks : Vector Byte npos) (p : Nat) : Byte := if h : p < npos then masks[p] else 0x00#8

end Sys2Proof.Machine
end

