-- ==== Sys2Proof/Machine/Flags.lean ====
section
/-! DEFINITION. The block's only flags: the eight segment flags of a position (spec/10_state.md R25) and the five
indicator flags (R28), computed by Decode (spec/41_decode.md R121, R124). There is no carry, zero, overflow or
condition flag (R25). -/

namespace Sys2Proof.Machine

/-- Is a segment flag set in a mask (R25)? -/
def segLit (v : Byte) (f : SegFlag) : Bool := v &&& f.bit != 0x00#8

/-- Is an indicator flag set in an `IND` value (R28)? -/
def indLit (v : Byte) (k : Indicator) : Bool := v &&& k.bit != 0x00#8

/-- `DecodePos(p)`: start from `0x00`, OR in `1 << f` for each flag whose test is true, flags ascending (R121). -/
def decodePos (sm : Segmap) (m : Memory) (p : Fin npos) : Byte :=
  SegFlag.all.foldl (fun v f => if test m (sm[p][f.number]) then v ||| f.bit else v) 0x00#8

/-- `DecodeInd()`: the same over the indicators; bits 5 to 7 stay 0 (R124). -/
def decodeInd (im : Indmap) (m : Memory) : Byte :=
  Indicator.all.foldl (fun v k => if test m (im[k.number]) then v ||| k.bit else v) 0x00#8

/-- The eight masks of `DecodeAll()` (R125). -/
def decodeMasks (sm : Segmap) (m : Memory) : Vector Byte npos := Vector.ofFn (decodePos sm m)

end Sys2Proof.Machine
end

