-- ==== Sys2Proof/Machine/Ops.lean ====
section
/-! DEFINITION. The named operations over the state that the meanings share. The block takes no exception and returns
from none (spec/60_exceptions.md R200, R210, R211; spec/40_buffer_access.md R104), so there is no operation for
either. -/

namespace Sys2Proof.Machine

/-- A command ends: `resp <- v` (spec/30_encoding.md R71). Every command completes (R200). -/
def respond (v : Byte) (s : State) : Host.Outcome State Fault Refusal := .next { s with resp := v }

/-- The load of LCDRD (spec/40_buffer_access.md R102). -/
def loadByte (s : State) (idx : Nat) : Byte := s.lcdm.read (directIndex idx)

/-- The store of LCDWR (spec/40_buffer_access.md R101): only the byte changes (spec/20_memory.md R57). -/
def storeByte (s : State) (idx : Nat) (v : Byte) : State := { s with lcdm := s.lcdm.write (directIndex idx) v }

/-- `DecodeAll()`: every mask and the indicator latch overwritten in full from the one value of `LCDM`
(spec/41_decode.md R125). -/
def decodeAll (s : State) : State :=
  { s with mask := decodeMasks s.cfg.segmap s.lcdm, ind := decodeInd s.cfg.indmap s.lcdm }

/-- `emit(str)`: the string appended to `OUT` as one event (spec/42_render.md R164). -/
def emit (str : List Byte) (s : State) : State := { s with out := s.out ++ [str] }

/-- A reserved command: no state changes, nothing is emitted, `resp = 0x00` (spec/30_encoding.md R75). -/
def absorbReserved (s : State) : Host.Outcome State Fault Refusal := respond 0x00#8 s

/-- An external agent issues a command word: it joins the end of the order of issue (spec/10_state.md R24,
spec/20_memory.md R59). -/
def issue (w : Cmd) (s : State) : State := { s with pending := s.pending ++ [w] }

/-- The oldest issued word and the state without it; none when no command has arrived. -/
def fetch (s : State) : Option (Cmd × State) :=
  match s.pending with
  | [] => none
  | w :: ws => some (w, { s with pending := ws })

/-- The next issued word and nothing else changed: `w` before whatever is pending. -/
def issueNext (w : Cmd) (s : State) : State := { s with pending := w :: s.pending }

/-- The reset event, as the outside gives it: every piece of state takes its reset value, the configuration stays
(spec/70_reset_and_hazards.md R230, R231). It is no command and no step. -/
def resetEvent (s : State) : State := State.resetWith s.cfg

end Sys2Proof.Machine
end

