-- ==== Sys2Proof/Machine/Buffer.lean ====
section
/-! DEFINITION. The buffer access commands NOP, LCDWR, LCDRD (spec/40_buffer_access.md). -/

namespace Sys2Proof.Machine

/-- `NOP` (R100). -/
def execNop (s : State) : Host.Outcome State Fault Refusal := respond 0x00#8 s

/-- `LCDWR idx, data` (R101). -/
def execLcdwr (idx : Nat) (data : Byte) (s : State) : Host.Outcome State Fault Refusal :=
  respond 0x00#8 (storeByte s idx data)

/-- `LCDRD idx` (R102). -/
def execLcdrd (idx : Nat) (s : State) : Host.Outcome State Fault Refusal := respond (loadByte s idx) s

end Sys2Proof.Machine
end

