-- ==== Sys2Proof/Machine/DecodeCommands.lean ====
section
/-! DEFINITION. The commands MASKRD, INDRD, DECODE (spec/41_decode.md section 5). -/

namespace Sys2Proof.Machine

/-- `MASKRD idx` (R129): the latch, not a fresh decode. -/
def execMaskrd (idx : Nat) (s : State) : Host.Outcome State Fault Refusal := respond (maskAt s.mask idx) s

/-- `INDRD` (R130): the latch, not a fresh decode. -/
def execIndrd (s : State) : Host.Outcome State Fault Refusal := respond s.ind s

/-- `DECODE` (R128). -/
def execDecode (s : State) : Host.Outcome State Fault Refusal := respond 0x00#8 (decodeAll s)

end Sys2Proof.Machine
end

