-- ==== Sys2Proof/Machine/Render.lean ====
section
/-! DEFINITION. RENDER (spec/42_render.md): glyph, composition, indicator overlay, serialisation, emission. Each grid is
written cell by cell: a cell's value is what the rule's loops leave in it, in the rule's own order. -/

namespace Sys2Proof.Machine

/-- The cell (r, c) of `Glyph(m)` (R152): a space, then each lit segment in ascending order writes its own cells. -/
def glyphCell (m : Byte) (r c : Nat) : Byte :=
  SegFlag.all.foldl (fun ch f => if segLit m f && f.cells.contains (r, c) then f.char else ch) space

/-- `Glyph(m)`, the 5 x 5 grid of a mask (R151, R152). -/
def glyph (m : Byte) : Vector (Vector Byte glyphW) glyphH :=
  Vector.ofFn fun r => Vector.ofFn fun c => glyphCell m r.val c.val

/-- The frame column `c` lies in the columns `col(p)` to `col(p) + 4` of position `p` (R157). -/
def inPosition (p : Fin npos) (c : Nat) : Bool := decide (col p ≤ c) && decide (c < col p + glyphW)

/-- The cell (r, c) that `Compose()` leaves: a space, then each position in ascending order copies its glyph (R158). -/
def composeCell (masks : Vector Byte npos) (r c : Nat) : Byte :=
  positions.foldl (fun ch p => if inPosition p c then glyphCell masks[p] r (c - col p) else ch) space

/-- `Compose()` (R158): every cell of the frame, from the masks alone. -/
def compose (masks : Vector Byte npos) : Frame :=
  Vector.ofFn fun r => Vector.ofFn fun c => composeCell masks r.val c.val

/-- The triples of one indicator written over a cell (r, c) that holds `ch` (R160). -/
def paint (cells : List (Nat × Nat × Byte)) (r c : Nat) (ch : Byte) : Byte :=
  cells.foldl (fun x t => if t.1 = r ∧ t.2.1 = c then t.2.2 else x) ch

/-- The cell (r, c) that `Overlay()` leaves where `Compose()` left `ch`: indicators in ascending order, a lit one writes
its triples, an unlit one nothing (R160). -/
def overlayCell (ind : Byte) (r c : Nat) (ch : Byte) : Byte :=
  Indicator.all.foldl (fun x k => if indLit ind k then paint k.glyph r c x else x) ch

/-- `Overlay()` (R160). -/
def overlay (ind : Byte) (fr : Frame) : Frame :=
  Vector.ofFn fun r => Vector.ofFn fun c => overlayCell ind r.val c.val (fr[r][c])

/-- `row(r)` and its `ROW_EOL` (R163). -/
def serialiseRow (row : Vector Byte frameW) : List Byte := row.toList ++ rowEol

/-- `Serialise()` (R163): the prefix, then the five rows in ascending order, each followed by `ROW_EOL`. -/
def serialise (fr : Frame) : List Byte := framePrefix ++ fr.toList.flatMap serialiseRow

/-- The frame of a set of masks and an indicator value (R161). -/
def frameOf (masks : Vector Byte npos) (ind : Byte) : Frame := overlay ind (compose masks)

/-- Stages 2 and 3 of R150: `Compose()` then `Overlay()`, from the latches. -/
def drawFrame (s : State) : State := { s with frame := frameOf s.mask s.ind }

/-- Stages 4 and 5 of R150: `emit(Serialise())`. -/
def emitFrame (s : State) : State := emit (serialise s.frame) s

/-- `RENDER` (R165): the five stages of R150 as one indivisible step. -/
def execRender (s : State) : Host.Outcome State Fault Refusal :=
  respond 0x00#8 (emitFrame (drawFrame (decodeAll s)))

end Sys2Proof.Machine
end

