-- ==== Sys2Proof/Machine/Dispatch.lean ====
section
/-! DEFINITION. One arm for each command (spec/30_encoding.md R74). -/

namespace Sys2Proof.Machine

def exec (i : Instr) (s : State) : Host.Outcome State Fault Refusal :=
  match i with
  | .nop => Sys2Proof.Machine.execNop s
  | .lcdwr idx data => Sys2Proof.Machine.execLcdwr idx data s
  | .lcdrd idx => Sys2Proof.Machine.execLcdrd idx s
  | .maskrd idx => Sys2Proof.Machine.execMaskrd idx s
  | .indrd => Sys2Proof.Machine.execIndrd s
  | .decode => Sys2Proof.Machine.execDecode s
  | .render => Sys2Proof.Machine.execRender s

end Sys2Proof.Machine
end

