-- ==== Sys2Proof/Machine/Step.lean ====
section
/-! DEFINITION. One step: the oldest issued command, run whole (spec/10_state.md R24; spec/20_memory.md R56, R59). -/

namespace Sys2Proof.Machine

/-- One step. With no command issued the block is idle and nothing changes (spec/70_reset_and_hazards.md R232; log
entry 17). Otherwise the oldest word is decoded and run; a reserved word is absorbed (spec/30_encoding.md R75). -/
def step (s : State) : Host.Outcome State Fault Refusal :=
  match fetch s with
  | none => .next s
  | some (w, s') =>
    match decode w with
    | .instr i => exec i s'
    | .rejected _ => absorbReserved s'

/-- The state in which the very next step runs the word: an external agent's command, first in the order of issue (log
entry 1). -/
def State.withFetchWord (s : State) (nbits w : Nat) : State := issueNext (tableWord nbits w) s

end Sys2Proof.Machine
end

