-- ==== Sys2Proof/Machine/Assembler.lean ====
section
/-! DEFINITION. The assembler form of a command (spec/30_encoding.md R80), over lists of characters. What R80 leaves
open (letter case of hexadecimal digits, leading zeros, spaces before a comment) is log entry 13. -/

namespace Sys2Proof.Machine

/-- Why a line is no command. -/
inductive AsmError where
  /-- The line has none of the seven forms. -/
  | badLine
  /-- `idx > 15` (R80). -/
  | idxTooBig
  /-- `data > 0xFF` (R80). -/
  | dataTooBig
deriving DecidableEq, Repr

/-- What the assembler answers for a line: a command, nothing (a blank or comment line), or an error. -/
inductive AsmResult where
  | command (i : Instr)
  | nothing
  | error (e : AsmError)
deriving DecidableEq, Repr

/-- The value of a decimal digit. -/
def decDigit (c : Char) : Option Nat :=
  if 48 ≤ c.toNat ∧ c.toNat ≤ 57 then some (c.toNat - 48) else none

/-- The value of a hexadecimal digit, either case. -/
def hexDigit (c : Char) : Option Nat :=
  if 48 ≤ c.toNat ∧ c.toNat ≤ 57 then some (c.toNat - 48)
  else if 65 ≤ c.toNat ∧ c.toNat ≤ 70 then some (c.toNat - 55)
  else if 97 ≤ c.toNat ∧ c.toNat ≤ 102 then some (c.toNat - 87)
  else none

/-- The number a list of digits writes in a base, after the digits already read gave `acc`. -/
def digitsFrom (digit : Char → Option Nat) (base acc : Nat) : List Char → Option Nat
  | [] => some acc
  | c :: cs =>
    match digit c with
    | some d => digitsFrom digit base (acc * base + d) cs
    | none => none

/-- A decimal number: at least one digit (R80). -/
def parseDec (cs : List Char) : Option Nat := if cs = [] then none else digitsFrom decDigit 10 0 cs

/-- A hexadecimal number: `0x` and at least one digit (R80). -/
def parseHex : List Char → Option Nat
  | '0' :: 'x' :: c :: cs => digitsFrom hexDigit 16 0 (c :: cs)
  | _ => none

/-- The rest of a line after a given beginning. -/
def afterPrefix : List Char → List Char → Option (List Char)
  | [], cs => some cs
  | _ :: _, [] => none
  | p :: ps, c :: cs => if p = c then afterPrefix ps cs else none

/-- The line without its comment (R80: `;` to the end of the line) and the spaces before it. -/
def codePart (line : List Char) : List Char :=
  ((line.takeWhile fun c => c ≠ ';').reverse.dropWhile fun c => c = ' ').reverse

/-- The operand text before and after the first comma and space (R80). -/
def splitOperands : List Char → Option (List Char × List Char)
  | [] => none
  | ',' :: ' ' :: cs => some ([], cs)
  | c :: cs => (splitOperands cs).map fun r => (c :: r.1, r.2)

/-- A command with one index operand. -/
def asmIdx (f : Nat → Instr) (cs : List Char) : AsmResult :=
  match parseDec cs with
  | some idx => if idxFits idx then .command (f idx) else .error .idxTooBig
  | none => .error .badLine

/-- The operands of LCDWR: index, then data. -/
def asmIdxData (cs : List Char) : AsmResult :=
  match splitOperands cs with
  | none => .error .badLine
  | some (a, b) =>
    match parseDec a, parseHex b with
    | some idx, some d =>
      if idxFits idx then
        if d ≤ 0xFF then .command (.lcdwr idx (BitVec.ofNat 8 d)) else .error .dataTooBig
      else .error .idxTooBig
    | _, _ => .error .badLine

/-- The mnemonics in capitals (R80). -/
def mnemonicChars : Instr → List Char
  | .nop => ['N', 'O', 'P']
  | .lcdwr _ _ => ['L', 'C', 'D', 'W', 'R']
  | .lcdrd _ => ['L', 'C', 'D', 'R', 'D']
  | .maskrd _ => ['M', 'A', 'S', 'K', 'R', 'D']
  | .indrd => ['I', 'N', 'D', 'R', 'D']
  | .decode => ['D', 'E', 'C', 'O', 'D', 'E']
  | .render => ['R', 'E', 'N', 'D', 'E', 'R']

/-- A mnemonic and the space before its operands. -/
def withOperands (i : Instr) : List Char := mnemonicChars i ++ [' ']

/-- One line assembled: one command a line (R80). -/
def assembleLine (line : List Char) : AsmResult :=
  let code := codePart line
  if code = [] then .nothing
  else if code = mnemonicChars .nop then .command .nop
  else if code = mnemonicChars .indrd then .command .indrd
  else if code = mnemonicChars .decode then .command .decode
  else if code = mnemonicChars .render then .command .render
  else match afterPrefix (withOperands (.lcdwr 0 0)) code with
  | some cs => asmIdxData cs
  | none => match afterPrefix (withOperands (.lcdrd 0)) code with
    | some cs => asmIdx .lcdrd cs
    | none => match afterPrefix (withOperands (.maskrd 0)) code with
      | some cs => asmIdx .maskrd cs
      | none => .error .badLine

/-- The word a line assembles to: ignored fields are zero (R80, R73). -/
def assembleWord (line : List Char) : Option Cmd :=
  match assembleLine line with
  | .command i => some (encode i)
  | .nothing => none
  | .error _ => none

/-- The characters of the digit values 0 to 15, capitals above 9. -/
def digitChars : List Char := ['0', '1', '2', '3', '4', '5', '6', '7', '8', '9', 'A', 'B', 'C', 'D', 'E', 'F']

/-- The character of a digit value below 16. -/
def digitChar (d : Nat) : Char := digitChars.getD d '0'

/-- An index in decimal; an index that fits its field has one or two digits. -/
def printIdx (idx : Nat) : List Char := if idx < 10 then [digitChar idx] else [digitChar (idx / 10), digitChar (idx % 10)]

/-- A byte in hexadecimal with `0x`. -/
def printData (v : Byte) : List Char := ['0', 'x', digitChar (v.toNat / 16), digitChar (v.toNat % 16)]

/-- The line that writes a command (R80). -/
def printLine : Instr → List Char
  | .nop => mnemonicChars .nop
  | .lcdwr idx data => withOperands (.lcdwr 0 0) ++ printIdx idx ++ [',', ' '] ++ printData data
  | .lcdrd idx => withOperands (.lcdrd 0) ++ printIdx idx
  | .maskrd idx => withOperands (.maskrd 0) ++ printIdx idx
  | .indrd => mnemonicChars .indrd
  | .decode => mnemonicChars .decode
  | .render => mnemonicChars .render

end Sys2Proof.Machine
end

