-- ==== Sys2Proof/Machine/Harness.lean ====
section
/-! DEFINITION. The environment of the block: when the harness issues commands (spec/60_exceptions.md R203, R205, R208,
R209, R212; spec/70_reset_and_hazards.md R234, R236, R240). None of it is state of the block (R208); it is modelled
apart because these rules say which command sequences reach the block (log entry 10). -/

namespace Sys2Proof.Machine

/-- The command is one the firmware port issues (R205). -/
def firmwarePort : Instr → Bool
  | .nop => true
  | .lcdwr _ _ => true
  | .lcdrd _ => true
  | .maskrd _ => false
  | .indrd => false
  | .decode => false
  | .render => false

/-- The command is one the harness port or a test bench issues to observe the block: the harness port's commands (R205)
but RENDER, whose place in a tick is fixed (R209). -/
def harnessObserves : Instr → Bool
  | .nop => true
  | .lcdwr _ _ => false
  | .lcdrd _ => false
  | .maskrd _ => true
  | .indrd => true
  | .decode => true
  | .render => false

/-- Where a tick stands (R209). Which stages the source's `Rendering` covers is not settled (spec/90_conflicts.md C9):
the stage `awaiting` is in `AwaitingTick`, RENDER is issued in `Rendering`, the others carry no such label. -/
inductive TickStage where
  /-- Between ticks. -/
  | awaiting
  /-- After the RTC refresh: the draw callback runs. -/
  | drawing
  /-- The draw callback has returned and RENDER is due. -/
  | drawn
  /-- RENDER has completed: the keypress poll and its dispatch. -/
  | polling
deriving DecidableEq, Repr

/-- The harness state machine (R208), the loop of `AwaitingTick` and `Rendering` given by the stage of the tick. -/
inductive Phase where
  | notStarted
  | initializing
  | looping (stage : TickStage)
  /-- `Terminated`, after a quit (R208, R212). DESIGN CHOICE: a fatal abort (R203) is put here too (log entry 10). -/
  | terminated
deriving DecidableEq, Repr

/-- What happens around the block. -/
inductive HEvent where
  /-- Creation of the Device State, with the block's reset, and entry into the firmware (R234 (1), (2)). -/
  | start
  /-- The firmware or a callback issues a command. -/
  | firmware (i : Instr)
  /-- The harness or a test bench observes the block. -/
  | observe (i : Instr)
  /-- The continuation is captured at the firmware's blocking point (R234 (3)). -/
  | capture
  /-- The firmware entry point returns without reaching its blocking point: fatal (R203 (1)). -/
  | entryReturned
  /-- A tick begins with the RTC refresh; without the host clock it is fatal (R203 (2)). -/
  | beginTick (clockOk : Bool)
  /-- The draw callback returns. -/
  | drawReturned
  /-- The harness issues RENDER. -/
  | render
  /-- The tick ends; a recognised quit keypress terminates (R212). -/
  | endTick (quit : Bool)
deriving DecidableEq, Repr

/-- The harness and the block it drives. -/
structure Harness where
  phase : Phase
  block : State
deriving DecidableEq, Repr

/-- The harness before it starts. The block does not exist yet; `block` holds what reset will give it. -/
def Harness.initial (cfg : Config) : Harness := { phase := .notStarted, block := State.resetWith cfg }

/-- May the firmware or a callback issue commands in this phase: its entry code, a draw callback, a keypress callback
(R208, R209)? -/
def Phase.firmwareRuns : Phase → Bool
  | .notStarted => false
  | .initializing => true
  | .looping .awaiting => false
  | .looping .drawing => true
  | .looping .drawn => false
  | .looping .polling => true
  | .terminated => false

/-- May the block be observed: it exists and the run is not over (R212: after `Terminated` no command reaches it; for an
abort this is the model's choice, log entry 10). -/
def Phase.running : Phase → Bool
  | .notStarted => false
  | .initializing => true
  | .looping _ => true
  | .terminated => false

/-- The block runs one command; every command completes (R200). -/
def Harness.run (i : Instr) (p : Phase) (h : Harness) : Option Harness :=
  match exec i h.block with
  | .next s => some { phase := p, block := s }
  | .fault _ => none
  | .refused _ => none

/-- One event; `none` where the harness does not do it in that phase. DESIGN CHOICE (log entry 10): each fatal abort of
R203 ends in `terminated`, so nothing follows it, no observation either. R203 says only that no further tick or RENDER
follows an abort, and gives `Terminated` for a quit alone. -/
def Harness.on (e : HEvent) (h : Harness) : Option Harness :=
  match e with
  | .start => if h.phase = .notStarted then some { phase := .initializing, block := resetEvent h.block } else none
  | .firmware i => if h.phase.firmwareRuns && firmwarePort i then h.run i h.phase else none
  | .observe i => if h.phase.running && harnessObserves i then h.run i h.phase else none
  | .capture => if h.phase = .initializing then some { h with phase := .looping .awaiting } else none
  | .entryReturned => if h.phase = .initializing then some { h with phase := .terminated } else none
  | .beginTick clockOk =>
    if h.phase = .looping .awaiting then
      some { h with phase := if clockOk then .looping .drawing else .terminated }
    else none
  | .drawReturned => if h.phase = .looping .drawing then some { h with phase := .looping .drawn } else none
  | .render => if h.phase = .looping .drawn then h.run .render (.looping .polling) else none
  | .endTick quit =>
    if h.phase = .looping .polling then
      some { h with phase := if quit then .terminated else .looping .awaiting }
    else none

/-- A sequence of events. -/
def Harness.events : List HEvent → Harness → Option Harness
  | [], h => some h
  | e :: es, h =>
    match h.on e with
    | some h' => Harness.events es h'
    | none => none

end Sys2Proof.Machine
end

