-- ==== Sys2Proof/Machine/Pseudo.lean ====
section
/-! DEFINITION. Sequences of commands as an issuing agent gives them, and the pseudo-operations of
spec/30_encoding.md R81, R84. The temporary `t` of an expansion is the agent's, not state of the block (R81; log entry
14). -/

namespace Sys2Proof.Machine

/-- A list of commands run in the order of issue (spec/20_memory.md R59). -/
def execAll : List Instr → State → Host.Outcome State Fault Refusal
  | [], s => .next s
  | i :: is, s =>
    match exec i s with
    | .next s' => execAll is s'
    | .fault r => .fault r
    | .refused r => .refused r

/-- One command of an expansion, before the agent's temporary is known. -/
inductive AgentCmd where
  /-- A command that does not use `t`. -/
  | issue (i : Instr)
  /-- `t <- LCDRD i`. -/
  | load (idx : Nat)
  /-- `LCDWR i, (t | m)`. -/
  | storeOr (idx : Nat) (m : Byte)
  /-- `LCDWR i, (t & ~m)`. -/
  | storeAndNot (idx : Nat) (m : Byte)
deriving DecidableEq, Repr

/-- The block command an agent with temporary `t` issues. -/
def AgentCmd.instr (t : Byte) : AgentCmd → Instr
  | .issue i => i
  | .load idx => .lcdrd idx
  | .storeOr idx m => .lcdwr idx (t ||| m)
  | .storeAndNot idx m => .lcdwr idx (t &&& ~~~m)

/-- The agent's temporary after a command whose response is `resp`. -/
def AgentCmd.temp (t resp : Byte) : AgentCmd → Byte
  | .issue _ => t
  | .load _ => resp
  | .storeOr _ _ => t
  | .storeAndNot _ _ => t

/-- An agent's sequence run against the block, from temporary `t`; the temporary is lost at its end. -/
def agentRun : List AgentCmd → Byte → State → Host.Outcome State Fault Refusal
  | [], _, s => .next s
  | c :: cs, t, s =>
    match exec (c.instr t) s with
    | .next s' => agentRun cs (c.temp t s'.resp) s'
    | .fault r => .fault r
    | .refused r => .refused r

/-- A pseudo-operation (R81). -/
inductive Pseudo where
  | lcdzero
  | lcdset (idx : Nat) (m : Byte)
  | lcdclr (idx : Nat) (m : Byte)
  | segset (p : Fin npos) (f : SegFlag)
  | segclr (p : Fin npos) (f : SegFlag)
  | digit (p : Fin npos) (v : Byte)
  | indset (k : Indicator)
  | indclr (k : Indicator)
  | tick
deriving DecidableEq, Repr

/-- `LCDSET i, m`: read the byte, OR the mask in, write it back (R81). -/
def lcdsetCmds (idx : Nat) (m : Byte) : List AgentCmd := [.load idx, .storeOr idx m]

/-- `LCDCLR i, m`: read the byte, clear the mask's bits, write it back (R81). -/
def lcdclrCmds (idx : Nat) (m : Byte) : List AgentCmd := [.load idx, .storeAndNot idx m]

/-- `LCDSET` with the fields of a map entry. -/
def entrySetCmds (e : MapEntry) : List AgentCmd := lcdsetCmds (entryIndex e) e.mask

/-- `LCDCLR` with the fields of a map entry. -/
def entryClrCmds (e : MapEntry) : List AgentCmd := lcdclrCmds (entryIndex e) e.mask

/-- The command sequence a pseudo-operation stands for, the map entries resolved against the configured maps (R81). -/
def Pseudo.expand (cfg : Config) : Pseudo → List AgentCmd
  | .lcdzero => (List.range bufLen).map fun i => .issue (.lcdwr i 0x00#8)
  | .lcdset idx m => lcdsetCmds idx m
  | .lcdclr idx m => lcdclrCmds idx m
  | .segset p f => entrySetCmds (cfg.segmap[p][f.number])
  | .segclr p f => entryClrCmds (cfg.segmap[p][f.number])
  | .digit p v => SegFlag.all.flatMap fun f =>
      if segLit v f then entrySetCmds (cfg.segmap[p][f.number]) else entryClrCmds (cfg.segmap[p][f.number])
  | .indset k => entrySetCmds (cfg.indmap[k.number])
  | .indclr k => entryClrCmds (cfg.indmap[k.number])
  | .tick => [.issue .render]

/-- The index of a map entry fits the `idx` field, so the expansion can be assembled (R84). -/
def entryAssembles (e : MapEntry) : Bool := idxFits (entryIndex e)

/-- Can the pseudo-operation be assembled (R80, R84)? -/
def Pseudo.assembles (cfg : Config) : Pseudo → Bool
  | .lcdzero => true
  | .lcdset idx _ => idxFits idx
  | .lcdclr idx _ => idxFits idx
  | .segset p f => entryAssembles (cfg.segmap[p][f.number])
  | .segclr p f => entryAssembles (cfg.segmap[p][f.number])
  | .digit p _ => SegFlag.all.all fun f => entryAssembles (cfg.segmap[p][f.number])
  | .indset k => entryAssembles (cfg.indmap[k.number])
  | .indclr k => entryAssembles (cfg.indmap[k.number])
  | .tick => true

/-- The expansion, where it can be assembled. -/
def Pseudo.assemble (cfg : Config) (p : Pseudo) : Option (List AgentCmd) :=
  if p.assembles cfg then some (p.expand cfg) else none

end Sys2Proof.Machine
end

