-- ==== Sys2Proof/Safety.lean ====
section
/-! DEFINITION. What a sound state of the block is: the facts the spec gives about every state a run can reach. -/

namespace Sys2Proof.Safety

open Sys2Proof.Machine

/-- `IND` bits 5 to 7 are 0 (spec/10_state.md R28, R35). -/
abbrev IndTop (ind : Byte) : Prop := ind &&& 0xE0#8 = 0x00#8

/-- Every cell holds one of the codes of R36 (spec/10_state.md). -/
abbrev FrameCodes (fr : Frame) : Prop :=
  ∀ (r : Fin frameH) (c : Fin frameW), fr[r][c] ∈ cellCodes

/-- The event is one whole frame: the serialisation of the frame of some masks and some indicator value
(spec/42_render.md R164). -/
def WholeFrame (e : List Byte) : Prop :=
  ∃ (masks : Vector Byte npos) (ind : Byte), IndTop ind ∧ e = serialise (frameOf masks ind)

/-- `FRAME` is what was emitted last; before the first RENDER it is blank (spec/10_state.md R36, R37, R40). -/
def FrameIsLastEvent (s : State) : Prop :=
  match s.out.getLast? with
  | none => s.frame = blankFrame
  | some e => e = serialise s.frame

/-- The invariant of the block. -/
structure Inv (s : State) : Prop where
  /-- The buffer's list is in its canonical form (log entry 9). -/
  memory : s.lcdm.wf = true
  /-- R35. -/
  indTop : IndTop s.ind
  /-- R36. -/
  codes : FrameCodes s.frame
  /-- R37, R164. -/
  events : ∀ e ∈ s.out, WholeFrame e
  /-- R36, R37. -/
  last : FrameIsLastEvent s

end Sys2Proof.Safety
end

