-- ==== Sys2Proof/Certificates/Slice0/Obligations.lean ====
section
/-! DEFINITION. The statements about the block, from the numbered rules of spec/. A rule the spec marks as its own
decision (D<n>) is cited as a rule; a law the spec marks as derived, and a clause that rests on a choice of this model,
is a derived statement and says so. -/

namespace Sys2Proof.Claims

open Sys2Proof.Machine

/-- The buffer bit or bits a map entry names are set (spec/20_memory.md R51, spec/41_decode.md R120, R123). -/
def Lit (m : Memory) (e : MapEntry) : Prop := m.read e.byte.toNat &&& e.mask ≠ 0x00#8

/-- The latches of `t` are the flags of the buffer of `s` through the maps of `s`, bit by bit. -/
def LatchesDecode (s t : State) : Prop :=
  (∀ (p : Fin npos) (f : Fin nflag), (t.mask[p]).getLsbD f.val = true ↔ Lit s.lcdm (s.cfg.segmap[p][f])) ∧
  (∀ k : Fin nind, t.ind.getLsbD k.val = true ↔ Lit s.lcdm (s.cfg.indmap[k])) ∧
  (t.ind.getLsbD 5 = false ∧ t.ind.getLsbD 6 = false ∧ t.ind.getLsbD 7 = false)

/-- Two buffers hold the same 13 bytes. -/
def SameBytes (m n : Memory) : Prop := ∀ i, i < bufLen → m.read i = n.read i

/-- Two buffers decode to the same flags: each of the 64 segment and 5 indicator entries is lit in both or in neither. -/
def SameFlags (cfg : Config) (m n : Memory) : Prop :=
  (∀ (p : Fin npos) (f : Fin nflag), Lit m (cfg.segmap[p][f]) ↔ Lit n (cfg.segmap[p][f])) ∧
  (∀ k : Fin nind, Lit m (cfg.indmap[k]) ↔ Lit n (cfg.indmap[k]))

/-- Two buffers agree on every bit that one of the maps names: every bit of every entry's mask. A mask may have several
bits (spec/41_decode.md R123), and then this says more than `SameFlags`. -/
def SameNamedBits (cfg : Config) (m n : Memory) : Prop :=
  (∀ (p : Fin npos) (f : Fin nflag), m.read (cfg.segmap[p][f]).byte.toNat &&& (cfg.segmap[p][f]).mask =
    n.read (cfg.segmap[p][f]).byte.toNat &&& (cfg.segmap[p][f]).mask) ∧
  (∀ k : Fin nind, m.read (cfg.indmap[k]).byte.toNat &&& (cfg.indmap[k]).mask =
    n.read (cfg.indmap[k]).byte.toNat &&& (cfg.indmap[k]).mask)

/-- The bits of a command word its format uses (spec/30_encoding.md R70). -/
def usedBits : Format → Cmd
  | .w => 0xFFFF#16
  | .x => 0xFF00#16
  | .z => 0xF000#16

/-- The byte a command stores at a buffer index, if it stores there. -/
def storedAt (a : Nat) : Instr → Option Byte
  | .nop => none
  | .lcdwr idx data => if directIndex idx = a then some data else none
  | .lcdrd _ => none
  | .maskrd _ => none
  | .indrd => none
  | .decode => none
  | .render => none

/-- The value of the latest store to a buffer index in a sequence of commands. -/
def latestStore (a : Nat) : List Instr → Option Byte
  | [] => none
  | i :: is => match latestStore a is with
    | some v => some v
    | none => storedAt a i

/-- The byte at index `i` of an all-zero buffer in which the bits of some map entries are set. -/
def bytesOf (es : List MapEntry) (i : Nat) : Byte :=
  es.foldl (fun v e => if e.byte.toNat = i then v ||| e.mask else v) 0x00#8

/-- The end of a tick. -/
def isEndTick : HEvent → Bool
  | .start => false
  | .firmware _ => false
  | .observe _ => false
  | .capture => false
  | .entryReturned => false
  | .beginTick _ => false
  | .drawReturned => false
  | .render => false
  | .endTick _ => true

/-- The state with another output trace. -/
def withOut (o : List (List Byte)) (s : State) : State := { s with out := o }

/-- A configuration that differs in the tick rate only. -/
def withTickHz (n : Nat) (s : State) : State := { s with cfg := { s.cfg with tickHz := n } }

end Sys2Proof.Claims

open Sys2Proof Sys2Proof.Machine Sys2Proof.Safety Sys2Proof.Claims

/-! ## Reset and invariant -/

/-- R40: the reset event gives every piece of state its reset value and leaves the configuration; with the spec's default
`LCDM_RESET` every byte is zero. -/
def Obligations.ResetGivesEveryStateItsValue : Prop :=
  (∀ s : State,
    (∀ i : Fin bufLen, (resetEvent s).lcdm.read i.val = s.cfg.lcdmReset[i]) ∧
    (∀ p : Fin npos, (resetEvent s).mask[p] = 0x00#8) ∧
    (resetEvent s).ind = 0x00#8 ∧
    (∀ (r : Fin frameH) (c : Fin frameW), (resetEvent s).frame[r][c] = 0x20#8) ∧
    (resetEvent s).out = [] ∧
    (resetEvent s).cfg = s.cfg) ∧
  (∀ i : Fin bufLen, State.reset.lcdm.read i.val = 0x00#8)

/-- The invariant holds after reset, whatever the configuration. The canonical form of the list is the model's choice
(log entry 9). -/
def Obligations.InvariantHoldsAtReset : Prop := ∀ cfg : Config, Inv (State.resetWith cfg)

/-- Every step keeps the invariant: canonical buffer list (log entry 9), `IND` bits 5 to 7 zero (R35), frame codes
(R36), `OUT` only whole frames (R37, R164), `FRAME` the last emitted frame (R36, R37). -/
def Obligations.EveryStepKeepsInvariant : Prop :=
  ∀ s t : State, Inv s → step s = .next t → Inv t

/-- R6: the configuration record of every state holds the four sizes with these values, and they are the sizes of the
block: the buffer's indices, the positions, the flags of a position, the rows of a glyph. -/
def Obligations.ConfigurationHoldsTheSizes : Prop :=
  ∀ s : State,
    s.cfg.sizes.bufLen = 13 ∧ s.cfg.sizes.npos = 8 ∧ s.cfg.sizes.nflag = 8 ∧ s.cfg.sizes.glyphH = 5 ∧
    (∀ (i : Nat) (v : Byte), (i < s.cfg.sizes.bufLen → (s.lcdm.write i v).read i = v) ∧
      (s.cfg.sizes.bufLen ≤ i → (s.lcdm.write i v).read i = 0x00#8)) ∧
    s.mask.toList.length = s.cfg.sizes.npos ∧
    s.cfg.segmap.toList.length = s.cfg.sizes.npos ∧
    (∀ row ∈ s.cfg.segmap.toList, row.toList.length = s.cfg.sizes.nflag) ∧
    (∀ m : Byte, (glyph m).toList.length = s.cfg.sizes.glyphH)

/-! ## Command words -/

/-- Decoding the encoding of a well-formed command gives it back, every operand at every value (R70, R72, R74). -/
def Obligations.DecodeOfEncodeGivesTheCommand : Prop :=
  ∀ i : Instr, i.wf = true → decode (encode i) = .instr i

/-- R74, with the operand assembly of R72: the table selects the row by `cmd & 0xF000`; fields by division. -/
def Obligations.DecoderFollowsOpcodeTable : Prop :=
  ∀ w : Cmd,
    (w &&& 0xF000#16 = 0x0000#16 → decode w = .instr .nop) ∧
    (w &&& 0xF000#16 = 0x1000#16 →
      decode w = .instr (.lcdwr (w.toNat / 256 % 16) (BitVec.ofNat 8 (w.toNat % 256)))) ∧
    (w &&& 0xF000#16 = 0x2000#16 → decode w = .instr (.lcdrd (w.toNat / 256 % 16))) ∧
    (w &&& 0xF000#16 = 0x3000#16 → decode w = .instr (.maskrd (w.toNat / 256 % 16))) ∧
    (w &&& 0xF000#16 = 0x4000#16 → decode w = .instr .indrd) ∧
    (w &&& 0xF000#16 = 0x5000#16 → decode w = .instr .decode) ∧
    (w &&& 0xF000#16 = 0x6000#16 → decode w = .instr .render)

/-- R73: fields a format ignores may hold any value, and the canonical word has them zero. -/
def Obligations.IgnoredFieldsDoNotMatter : Prop :=
  ∀ (w v : Cmd) (i : Instr), decode w = .instr i →
    (v &&& usedBits i.format = w &&& usedBits i.format → decode v = .instr i) ∧
    encode i = w &&& usedBits i.format

/-- A word from `0x7000` on is reserved: the step that meets it changes no state of the block, emits nothing and responds
`0x00` (spec/30_encoding.md section 4, R75; the response also section 1, R71). That the decoder rejects the word is the
model's choice (DEDUCED, log entry 6), and so is the list of issued words the step takes it off (DESIGN CHOICE, log
entry 1). -/
def Obligations.ReservedWordsAreAbsorbed : Prop :=
  ∀ (s : State) (w : Cmd) (ws : List Cmd), s.pending = w :: ws → 0x7000 ≤ w.toNat →
    (∃ r, decode w = .rejected r) ∧ step s = .next { s with pending := ws, resp := 0x00#8 }

/-- Words written out from the spec's encodings and worked examples (spec/30_encoding.md section 3). -/
def Obligations.WorkedWordsDecode : Prop :=
  decode 0b0000000000000000#16 = .instr .nop ∧
  decode 0b0001011000111111#16 = .instr (.lcdwr 6 0x3F#8) ∧
  decode 0b0001110000000010#16 = .instr (.lcdwr 12 0x02#8) ∧
  decode 0b0010011000000000#16 = .instr (.lcdrd 6) ∧
  decode 0b0011011000000000#16 = .instr (.maskrd 6) ∧
  decode 0b0100000000000000#16 = .instr .indrd ∧
  decode 0b0101000000000000#16 = .instr .decode ∧
  decode 0b0110000000000000#16 = .instr .render

/-! ## One step -/

/-- A step takes the oldest issued word and runs the command it decodes to, whole (spec/10_state.md section 3,
spec/20_memory.md sections 4, 7). The list of issued words is the model's (log entry 1). -/
def Obligations.StepRunsTheDecodedCommand : Prop :=
  ∀ (s : State) (w : Cmd) (ws : List Cmd) (i : Instr), s.pending = w :: ws → decode w = .instr i →
    step s = exec i { s with pending := ws }

/-- Idle with no command: "after reset the block is idle and does nothing until a command arrives" (spec/
70_reset_and_hazards.md section 1; log entry 17). -/
def Obligations.IdleStepChangesNothing : Prop :=
  ∀ s : State, s.pending = [] → step s = .next s

/-- R200: every command word in every state and configuration has exactly one next state; the response is a field of
it. -/
def Obligations.EveryStepCompletes : Prop := ∀ s : State, ∃! t : State, step s = .next t

/-- R231: reset does not change the configuration, and there is no way to change it while the block runs. -/
def Obligations.ResetAndStepsKeepTheConfiguration : Prop :=
  (∀ s : State, (resetEvent s).cfg = s.cfg) ∧
  (∀ s t : State, step s = .next t → t.cfg = s.cfg)

/-- R37: RENDER appends exactly one event of 228 bytes to `OUT`; no other operation touches `OUT`; nothing in the block
reads `OUT`: with any other trace in its place the step appends the same events and leaves everything else the same. -/
def Obligations.OutGrowsOnlyByRenderedFrames : Prop :=
  ∀ s t : State, step s = .next t →
    (∀ (w : Cmd) (ws : List Cmd), s.pending = w :: ws → decode w = .instr .render →
      ∃ e : List Byte, t.out = s.out ++ [e] ∧ e.length = 228) ∧
    ((∀ (w : Cmd) (ws : List Cmd), s.pending = w :: ws → decode w ≠ .instr .render) → t.out = s.out) ∧
    (∃ es : List (List Byte), t.out = s.out ++ es ∧
      ∀ o : List (List Byte), step (withOut o s) = .next (withOut (o ++ es) t))

/-- The latches, the frame and the buffer have one writer each (spec/10_state.md sections 2, 6; spec/
70_reset_and_hazards.md section 3): only LCDWR writes `LCDM`, only DECODE and RENDER write `MASK` and `IND`, only RENDER
writes `FRAME`. -/
def Obligations.EachStateHasItsOwnWriters : Prop :=
  ∀ (i : Instr) (s t : State), exec i s = .next t →
    ((∀ (idx : Nat) (data : Byte), i ≠ .lcdwr idx data) → t.lcdm = s.lcdm) ∧
    (i ≠ .decode → i ≠ .render → t.mask = s.mask ∧ t.ind = s.ind) ∧
    (i ≠ .render → t.frame = s.frame ∧ t.out = s.out)

/-- The tick rate decides nothing (spec/60_exceptions.md section 8): a step commutes with changing it. -/
def Obligations.TickRateDecidesNothing : Prop :=
  ∀ (s t : State) (n : Nat), step s = .next t → step (withTickHz n s) = .next (withTickHz n t)

/-! ## The buffer -/

/-- R52, R53: reads and writes of one byte, in range and out of range. -/
def Obligations.ByteReadsAndWrites : Prop :=
  ∀ (m : Memory) (i j : Nat) (v : Byte),
    (i < bufLen → (m.write i v).read i = v) ∧
    (j ≠ i → (m.write i v).read j = m.read j) ∧
    (bufLen ≤ i → m.read i = 0x00#8 ∧ m.write i v = m)

/-- R100. -/
def Obligations.NopOnlyResponds : Prop :=
  (∀ w : Cmd, w.toNat ≤ 0x0FFF → decode w = .instr .nop) ∧ encode .nop = 0x0000#16 ∧
  ∀ s : State, exec .nop s = .next { s with resp := 0x00#8 }

/-- R101: the byte at the effective index takes the data when the index is at most 12, nothing is stored for 13 to 15,
and nothing but the byte and the response changes. -/
def Obligations.LcdwrStoresOneByte : Prop :=
  ∀ (s : State) (idx : Nat) (data : Byte), idx ≤ 15 →
    decode (0x1000#16 ||| BitVec.ofNat 16 idx <<< 8 ||| data.setWidth 16) = .instr (.lcdwr idx data) ∧
    ∃ t : State, exec (.lcdwr idx data) s = .next t ∧
      (idx ≤ 12 → t.lcdm.read (directIndex idx) = data) ∧
      (∀ a : Nat, a ≠ directIndex idx → t.lcdm.read a = s.lcdm.read a) ∧
      (13 ≤ idx → t.lcdm = s.lcdm) ∧
      t.resp = 0x00#8 ∧ t.mask = s.mask ∧ t.ind = s.ind ∧ t.frame = s.frame ∧ t.out = s.out ∧
      t.cfg = s.cfg ∧ t.pending = s.pending

/-- R102: the response is the byte, zero for 13 to 15; no state changes; straight after reset it is `LCDM_RESET`. -/
def Obligations.LcdrdReadsOneByte : Prop :=
  ∀ (s : State) (idx : Nat), idx ≤ 15 →
    (∀ low : Byte, decode (0x2000#16 ||| BitVec.ofNat 16 idx <<< 8 ||| low.setWidth 16) = .instr (.lcdrd idx)) ∧
    (idx ≤ 12 → exec (.lcdrd idx) s = .next { s with resp := s.lcdm.read (directIndex idx) }) ∧
    (13 ≤ idx → exec (.lcdrd idx) s = .next { s with resp := 0x00#8 }) ∧
    (∀ (cfg : Config) (h : idx < bufLen),
      exec (.lcdrd idx) (State.resetWith cfg) = .next { State.resetWith cfg with resp := cfg.lcdmReset[idx] })

/-- After any sequence of commands a byte holds the value of the latest store to it, or what it held before
(spec/20_memory.md section 7; the store-then-load law the spec derives in spec/40_buffer_access.md section 2): LCDRD
responds with that value, and the segment and indicator flags that DECODE and RENDER set test that value. -/
def Obligations.LatestStoreIsRead : Prop :=
  ∀ (cs : List Instr) (s : State), ∃ t : State, execAll cs s = .next t ∧
    (∀ i : Nat, i < bufLen →
      t.lcdm.read i = (latestStore i cs).getD (s.lcdm.read i) ∧
      exec (.lcdrd i) t = .next { t with resp := (latestStore i cs).getD (s.lcdm.read i) }) ∧
    (∀ u : State, exec .decode t = .next u ∨ exec .render t = .next u →
      (∀ (p : Fin npos) (f : Fin nflag), (s.cfg.segmap[p][f]).byte.toNat < bufLen →
        ((u.mask[p]).getLsbD f.val = true ↔
          (latestStore (s.cfg.segmap[p][f]).byte.toNat cs).getD (s.lcdm.read (s.cfg.segmap[p][f]).byte.toNat) &&&
            (s.cfg.segmap[p][f]).mask ≠ 0x00#8)) ∧
      (∀ k : Fin nind, (s.cfg.indmap[k]).byte.toNat < bufLen →
        (u.ind.getLsbD k.val = true ↔
          (latestStore (s.cfg.indmap[k]).byte.toNat cs).getD (s.lcdm.read (s.cfg.indmap[k]).byte.toNat) &&&
            (s.cfg.indmap[k]).mask ≠ 0x00#8)))

/-! ## Decode -/

/-- R120: the bit test, false for every byte-index of 13 or more. -/
def Obligations.BitTestIsAndThenNonZero : Prop :=
  ∀ (m : Memory) (e : MapEntry),
    (bufLen ≤ e.byte.toNat → test m e = false) ∧
    (e.byte.toNat < bufLen → test m e = (m.read e.byte.toNat &&& e.mask != 0x00#8))

/-- R128, R125: DECODE sets every flag from the buffer, whatever the latches held, and changes nothing else. -/
def Obligations.DecodeSetsEveryFlag : Prop :=
  (∀ w : Cmd, w.toNat / 4096 = 5 → decode w = .instr .decode) ∧ encode .decode = 0x5000#16 ∧
  ∀ s : State, ∃ t : State, exec .decode s = .next t ∧ LatchesDecode s t ∧
    t.resp = 0x00#8 ∧ t.lcdm = s.lcdm ∧ t.frame = s.frame ∧ t.out = s.out ∧ t.cfg = s.cfg ∧ t.pending = s.pending

/-- R129: the latch of the position, zero for 8 to 15; no state changes; straight after reset the response is zero. -/
def Obligations.MaskrdReadsTheLatch : Prop :=
  ∀ (s : State) (idx : Nat), idx ≤ 15 →
    (∀ low : Byte, decode (0x3000#16 ||| BitVec.ofNat 16 idx <<< 8 ||| low.setWidth 16) = .instr (.maskrd idx)) ∧
    (∀ h : idx < npos, exec (.maskrd idx) s = .next { s with resp := s.mask[idx] }) ∧
    (8 ≤ idx → exec (.maskrd idx) s = .next { s with resp := 0x00#8 }) ∧
    (∀ cfg : Config, exec (.maskrd idx) (State.resetWith cfg) = .next { State.resetWith cfg with resp := 0x00#8 })

/-- R130: the indicator latch; no state changes. -/
def Obligations.IndrdReadsTheLatch : Prop :=
  (∀ w : Cmd, w.toNat / 4096 = 4 → decode w = .instr .indrd) ∧ encode .indrd = 0x4000#16 ∧
  ∀ s : State, exec .indrd s = .next { s with resp := s.ind }

/-- The irregular map entries of the list in spec/60_exceptions.md section 1, of either map (spec/41_decode.md sections
1, 2): out of range is off, a zero mask is off, several mask bits are lit when any is set, two entries naming the same
bit go together, also one of each map. -/
def Obligations.IrregularEntriesHaveDefinedFlags : Prop :=
  ∀ (s t : State) (p : Fin npos) (f : Fin nflag), exec .decode s = .next t →
    (bufLen ≤ (s.cfg.segmap[p][f]).byte.toNat → (t.mask[p]).getLsbD f.val = false) ∧
    ((s.cfg.segmap[p][f]).mask = 0x00#8 → (t.mask[p]).getLsbD f.val = false) ∧
    (∀ b : Fin 8, (s.cfg.segmap[p][f]).mask.getLsbD b.val = true →
      (s.lcdm.read (s.cfg.segmap[p][f]).byte.toNat).getLsbD b.val = true → (t.mask[p]).getLsbD f.val = true) ∧
    (∀ (q : Fin npos) (g : Fin nflag), s.cfg.segmap[p][f] = s.cfg.segmap[q][g] →
      (t.mask[p]).getLsbD f.val = (t.mask[q]).getLsbD g.val) ∧
    (∀ k : Fin nind, bufLen ≤ (s.cfg.indmap[k]).byte.toNat → t.ind.getLsbD k.val = false) ∧
    (∀ k : Fin nind, (s.cfg.indmap[k]).mask = 0x00#8 → t.ind.getLsbD k.val = false) ∧
    (∀ (k : Fin nind) (b : Fin 8), (s.cfg.indmap[k]).mask.getLsbD b.val = true →
      (s.lcdm.read (s.cfg.indmap[k]).byte.toNat).getLsbD b.val = true → t.ind.getLsbD k.val = true) ∧
    (∀ k l : Fin nind, s.cfg.indmap[k] = s.cfg.indmap[l] → t.ind.getLsbD k.val = t.ind.getLsbD l.val) ∧
    (∀ k : Fin nind, s.cfg.indmap[k] = s.cfg.segmap[p][f] → t.ind.getLsbD k.val = (t.mask[p]).getLsbD f.val)

/-- The round trip the spec derives (spec/41_decode.md section 4, first law): under `WF_SEGMAP`, with exactly the mapped
bit of (p, f) set, DECODE gives `1 << f` at `p`, zero elsewhere, and under `WF_INDMAP` no indicator. -/
def Obligations.OneMappedBitDecodesToItsFlag : Prop :=
  ∀ (s : State) (p : Fin npos) (f : Fin nflag), s.cfg.segmap.WF →
    (∀ i : Nat, i < bufLen →
      s.lcdm.read i = if i = (s.cfg.segmap[p][f]).byte.toNat then (s.cfg.segmap[p][f]).mask else 0x00#8) →
    ∃ t : State, exec .decode s = .next t ∧ t.mask[p] = 0x01#8 <<< f.val ∧
      (∀ q : Fin npos, q ≠ p → t.mask[q] = 0x00#8) ∧
      (s.cfg.indmap.WF s.cfg.segmap → t.ind = 0x00#8)

/-- Every assignment of the 64 flags can be stored (spec/41_decode.md section 4, first law, last sentence): under
`WF_SEGMAP` stores alone bring any eight masks about. Of that sentence this is the existence half: that the mapped bits
are the only such setting is not claimed here. -/
def Obligations.AnyMasksCanBeStored : Prop :=
  ∀ (s : State) (masks : Vector Byte npos), s.cfg.segmap.WF →
    ∃ (stores : List (Nat × Byte)) (t : State),
      (∀ x ∈ stores, x.1 ≤ 12) ∧
      execAll (stores.map (fun x => Instr.lcdwr x.1 x.2) ++ [.decode]) s = .next t ∧ t.mask = masks

/-- The law the spec derives in spec/41_decode.md section 4: decoding distributes over the OR of buffers, for every
map. -/
def Obligations.DecodeDistributesOverOr : Prop :=
  ∀ (s x y s' x' y' : State), x.cfg = s.cfg → y.cfg = s.cfg →
    (∀ i : Nat, i < bufLen → s.lcdm.read i = x.lcdm.read i ||| y.lcdm.read i) →
    exec .decode s = .next s' → exec .decode x = .next x' → exec .decode y = .next y' →
    (∀ p : Fin npos, s'.mask[p] = x'.mask[p] ||| y'.mask[p]) ∧ s'.ind = x'.ind ||| y'.ind

/-- The two ends (spec/41_decode.md section 4, second law): the all-zero buffer decodes to nothing for every map; under
both well-formedness premises the all-ones buffer decodes to everything. -/
def Obligations.ZeroAndOnesBuffersDecode : Prop :=
  ∀ s t : State, exec .decode s = .next t →
    ((∀ i : Nat, i < bufLen → s.lcdm.read i = 0x00#8) →
      (∀ p : Fin npos, t.mask[p] = 0x00#8) ∧ t.ind = 0x00#8) ∧
    (s.cfg.MapsWF → (∀ i : Nat, i < bufLen → s.lcdm.read i = 0xFF#8) →
      (∀ p : Fin npos, t.mask[p] = 0xFF#8) ∧ t.ind = 0x1F#8)

/-- Bits no map names change neither latches nor frame nor event (spec/10_state.md section 2; spec/42_render.md section
7): buffers that agree on the named bits decode to the same flags, and buffers that decode to the same flags render
alike. -/
def Obligations.UnnamedBitsHaveNoEffect : Prop :=
  (∀ (cfg : Config) (m n : Memory), SameNamedBits cfg m n → SameFlags cfg m n) ∧
  ∀ s x s' x' : State, x.cfg = s.cfg → SameFlags s.cfg s.lcdm x.lcdm →
    exec .render s = .next s' → exec .render x = .next x' →
    s'.mask = x'.mask ∧ s'.ind = x'.ind ∧ s'.frame = x'.frame ∧
      ∃ e : List Byte, s'.out = s.out ++ [e] ∧ x'.out = x.out ++ [e]

/-! ## Render -/

/-- R165, R150: RENDER decodes, composes, overlays, serialises and emits, and changes nothing else. -/
def Obligations.RenderEmitsTheDecodedFrame : Prop :=
  (∀ w : Cmd, w.toNat / 4096 = 6 → decode w = .instr .render) ∧ encode .render = 0x6000#16 ∧
  ∀ s : State, ∃ t : State, exec .render s = .next t ∧ LatchesDecode s t ∧
    t.frame = overlay t.ind (compose t.mask) ∧ t.out = s.out ++ [serialise t.frame] ∧
    t.resp = 0x00#8 ∧ t.lcdm = s.lcdm ∧ t.cfg = s.cfg ∧ t.pending = s.pending

/-- R152: all 25 cells of a glyph, written out. -/
def Obligations.GlyphCellsAreTheSegments : Prop :=
  ∀ m : Byte,
    (glyph m)[0][0] = 0x20#8 ∧
    (glyph m)[0][1] = (if m.getLsbD 0 then 0x2D#8 else 0x20#8) ∧
    (glyph m)[0][2] = (if m.getLsbD 0 then 0x2D#8 else 0x20#8) ∧
    (glyph m)[0][3] = 0x20#8 ∧ (glyph m)[0][4] = 0x20#8 ∧
    (glyph m)[1][0] = (if m.getLsbD 5 then 0x7C#8 else 0x20#8) ∧
    (glyph m)[1][1] = 0x20#8 ∧ (glyph m)[1][2] = 0x20#8 ∧
    (glyph m)[1][3] = (if m.getLsbD 1 then 0x7C#8 else 0x20#8) ∧
    (glyph m)[1][4] = 0x20#8 ∧ (glyph m)[2][0] = 0x20#8 ∧
    (glyph m)[2][1] = (if m.getLsbD 6 then 0x2D#8 else 0x20#8) ∧
    (glyph m)[2][2] = (if m.getLsbD 6 then 0x2D#8 else 0x20#8) ∧
    (glyph m)[2][3] = 0x20#8 ∧ (glyph m)[2][4] = 0x20#8 ∧
    (glyph m)[3][0] = (if m.getLsbD 4 then 0x7C#8 else 0x20#8) ∧
    (glyph m)[3][1] = 0x20#8 ∧ (glyph m)[3][2] = 0x20#8 ∧
    (glyph m)[3][3] = (if m.getLsbD 2 then 0x7C#8 else 0x20#8) ∧
    (glyph m)[3][4] = 0x20#8 ∧ (glyph m)[4][0] = 0x20#8 ∧
    (glyph m)[4][1] = (if m.getLsbD 3 then 0x2D#8 else 0x20#8) ∧
    (glyph m)[4][2] = (if m.getLsbD 3 then 0x2D#8 else 0x20#8) ∧
    (glyph m)[4][3] = 0x20#8 ∧
    (glyph m)[4][4] = (if m.getLsbD 7 then 0x2E#8 else 0x20#8)

/-- Two masks never look alike (spec/42_render.md section 2, a law the spec derives). -/
def Obligations.GlyphsAreDistinct : Prop := ∀ m n : Byte, glyph m = glyph n → m = n

/-- R157, R158: position `p` stands at columns `3 + 5 * (7 - p)` on, position 7 leftmost; those columns show its glyph,
the margin is blank, and together they are all 43 columns, each position's own. -/
def Obligations.ComposePlacesEachGlyph : Prop :=
  ∀ (masks : Vector Byte npos) (r : Fin frameH),
    (∀ (p : Fin npos) (c : Fin glyphW),
      ((compose masks)[r])[3 + 5 * (7 - p.val) + c.val]? = some ((glyph masks[p])[r][c])) ∧
    (∀ c : Fin leftMargin, ((compose masks)[r])[c.val]? = some 0x20#8) ∧
    (∀ c : Fin frameW, c.val < 3 ∨ ∃! x : Fin npos × Fin glyphW, c.val = 3 + 5 * (7 - x.1.val) + x.2.val) ∧
    (∀ p : Fin npos, col p = 3 + 5 * (7 - p.val))

/-- R159, R160: the eight indicator cells, written out; every other cell stays; `Compose()` leaves a space in each;
margin column 2 is always a space. -/
def Obligations.OverlayWritesLitIndicators : Prop :=
  ∀ (ind : Byte) (fr : Frame),
    (overlay ind fr)[0][0] = (if ind.getLsbD 0 then 0x41#8 else fr[0][0]) ∧
    (overlay ind fr)[0][1] = (if ind.getLsbD 0 then 0x4D#8 else fr[0][1]) ∧
    (overlay ind fr)[1][0] = (if ind.getLsbD 1 then 0x50#8 else fr[1][0]) ∧
    (overlay ind fr)[1][1] = (if ind.getLsbD 1 then 0x4D#8 else fr[1][1]) ∧
    (overlay ind fr)[2][0] = (if ind.getLsbD 2 then 0x2D#8 else fr[2][0]) ∧
    (overlay ind fr)[1][12] = (if ind.getLsbD 3 then 0x6F#8 else fr[1][12]) ∧
    (overlay ind fr)[3][12] = (if ind.getLsbD 3 then 0x6F#8 else fr[3][12]) ∧
    (overlay ind fr)[4][0] = (if ind.getLsbD 4 then 0x2F#8 else fr[4][0]) ∧
    (∀ (r : Fin frameH) (c : Fin frameW),
      (r.val, c.val) ∉ [(0, 0), (0, 1), (1, 0), (1, 1), (2, 0), (1, 12), (3, 12), (4, 0)] →
      (overlay ind fr)[r][c] = fr[r][c]) ∧
    (∀ masks : Vector Byte npos,
      (compose masks)[0][0] = 0x20#8 ∧ (compose masks)[0][1] = 0x20#8 ∧ (compose masks)[1][0] = 0x20#8 ∧
      (compose masks)[1][1] = 0x20#8 ∧ (compose masks)[2][0] = 0x20#8 ∧ (compose masks)[1][12] = 0x20#8 ∧
      (compose masks)[3][12] = 0x20#8 ∧ (compose masks)[4][0] = 0x20#8 ∧
      ∀ r : Fin frameH, (compose masks)[r][2] = 0x20#8 ∧ (overlay ind (compose masks))[r][2] = 0x20#8)

/-- R163: the byte string of a frame, byte by byte. -/
def Obligations.SerialisedFrameLayout : Prop :=
  ∀ fr : Frame,
    (serialise fr).length = 228 ∧
    (serialise fr)[0]? = some 0x1B#8 ∧ (serialise fr)[1]? = some 0x5B#8 ∧ (serialise fr)[2]? = some 0x48#8 ∧
    (∀ (r : Fin frameH) (c : Fin frameW), (serialise fr)[3 + 45 * r.val + c.val]? = some fr[r][c]) ∧
    (∀ r : Fin frameH, (serialise fr)[3 + 45 * r.val + 43]? = some 0x0D#8 ∧
      (serialise fr)[3 + 45 * r.val + 44]? = some 0x0A#8)

/-- Locality, a law the spec derives (spec/42_render.md section 4): after RENDER the cells of a position are its glyph
alone, its gap cells but the colon's are blank, and so is margin column 2. -/
def Obligations.FrameCellsAreLocal : Prop :=
  ∀ s t : State, exec .render s = .next t →
    ∀ r : Fin frameH,
      (∀ (p : Fin npos) (c : Fin glyphW), c.val < 4 ∨ r.val = 4 →
        (t.frame[r])[3 + 5 * (7 - p.val) + c.val]? = some ((glyph t.mask[p])[r][c])) ∧
      (∀ p : Fin npos, r.val < 4 → ¬ (p.val = 6 ∧ (r.val = 1 ∨ r.val = 3)) →
        (t.frame[r])[3 + 5 * (7 - p.val) + 4]? = some 0x20#8) ∧
      (t.frame[r])[2]? = some 0x20#8

/-- Idempotence, a law the spec derives (spec/42_render.md section 7): the event is a function of the buffer and the
configuration alone, at any two times and whatever else the states hold. -/
def Obligations.EqualBuffersEmitEqualFrames : Prop :=
  ∀ s x s' x' : State, x.cfg = s.cfg → SameBytes s.lcdm x.lcdm →
    exec .render s = .next s' → exec .render x = .next x' →
    ∃ e : List Byte, s'.out = s.out ++ [e] ∧ x'.out = x.out ++ [e]

/-- Digit render, a law the spec derives (spec/42_render.md section 7): the six bits A to F of position 6 in an all-zero
buffer. Columns 8 to 11 are the "0" under `WF_SEGMAP`; column 12, where a colon may stand, under `WF_INDMAP` as well
(log entry 18). -/
def Obligations.SixBitsOfPositionSixRenderZero : Prop :=
  ∀ s : State, s.cfg.segmap.WF →
    (∀ i : Nat, i < bufLen → s.lcdm.read i =
      bytesOf [s.cfg.segmap[6][0], s.cfg.segmap[6][1], s.cfg.segmap[6][2], s.cfg.segmap[6][3], s.cfg.segmap[6][4],
        s.cfg.segmap[6][5]] i) →
    ∃ t : State, exec .render s = .next t ∧ t.mask[6] = 0x3F#8 ∧
      (∀ q : Fin npos, q ≠ 6 → t.mask[q] = 0x00#8) ∧
      t.frame.toList.map (fun row => (row.toList.drop 8).take 4) =
        [[0x20#8, 0x2D#8, 0x2D#8, 0x20#8], [0x7C#8, 0x20#8, 0x20#8, 0x7C#8], [0x20#8, 0x20#8, 0x20#8, 0x20#8],
         [0x7C#8, 0x20#8, 0x20#8, 0x7C#8], [0x20#8, 0x2D#8, 0x2D#8, 0x20#8]] ∧
      (s.cfg.indmap.WF s.cfg.segmap → t.ind = 0x00#8 ∧
        t.frame.map (fun row => (row.toList.take 8, row.toList.drop 13)) =
          Vector.replicate frameH (List.replicate 8 0x20#8, List.replicate 30 0x20#8) ∧
        t.frame.toList.map (fun row => (row.toList.drop 8).take 5) =
          [[0x20#8, 0x2D#8, 0x2D#8, 0x20#8, 0x20#8], [0x7C#8, 0x20#8, 0x20#8, 0x7C#8, 0x20#8],
           [0x20#8, 0x20#8, 0x20#8, 0x20#8, 0x20#8], [0x7C#8, 0x20#8, 0x20#8, 0x7C#8, 0x20#8],
           [0x20#8, 0x2D#8, 0x2D#8, 0x20#8, 0x20#8]])

/-- Faithfulness, a law the spec derives (spec/42_render.md section 7), and its converse. For every map two buffers emit
equal frames exactly when they decode to the same flags; under `WF_SEGMAP` and `WF_INDMAP`, exactly when they agree on
every bit the maps name. -/
def Obligations.FramesDetermineTheNamedBits : Prop :=
  ∀ (s x s' x' : State) (e e' : List Byte), x.cfg = s.cfg →
    exec .render s = .next s' → exec .render x = .next x' → s'.out = s.out ++ [e] → x'.out = x.out ++ [e'] →
    (e = e' ↔ SameFlags s.cfg s.lcdm x.lcdm) ∧
    (s.cfg.MapsWF → (e = e' ↔ SameNamedBits s.cfg s.lcdm x.lcdm))

/-! ## Pseudo-operations and assembler -/

/-- `LCDSET` and `LCDCLR` change the chosen bits of one byte and keep the rest (spec/30_encoding.md section 7, spec/
70_reset_and_hazards.md section 3); above 12 nothing changes. Run from any temporary of the agent (log entry 14). -/
def Obligations.SetAndClearChangeChosenBits : Prop :=
  ∀ (s : State) (idx : Nat) (m t0 : Byte), idx ≤ 15 →
    (∃ t : State, agentRun (Pseudo.expand s.cfg (.lcdset idx m)) t0 s = .next t ∧
      (idx ≤ 12 → t.lcdm.read idx = s.lcdm.read idx ||| m) ∧
      (∀ a : Nat, a ≠ idx → t.lcdm.read a = s.lcdm.read a) ∧
      (13 ≤ idx → t.lcdm = s.lcdm) ∧
      t.mask = s.mask ∧ t.ind = s.ind ∧ t.frame = s.frame ∧ t.out = s.out ∧ t.cfg = s.cfg ∧ t.pending = s.pending) ∧
    (∃ t : State, agentRun (Pseudo.expand s.cfg (.lcdclr idx m)) t0 s = .next t ∧
      (idx ≤ 12 → t.lcdm.read idx = s.lcdm.read idx &&& ~~~m) ∧
      (∀ a : Nat, a ≠ idx → t.lcdm.read a = s.lcdm.read a) ∧
      (13 ≤ idx → t.lcdm = s.lcdm) ∧
      t.mask = s.mask ∧ t.ind = s.ind ∧ t.frame = s.frame ∧ t.out = s.out ∧ t.cfg = s.cfg ∧ t.pending = s.pending)

/-- `LCDZERO` clears the whole buffer and nothing else (spec/30_encoding.md section 7). -/
def Obligations.LcdzeroClearsTheBuffer : Prop :=
  ∀ (s : State) (t0 : Byte), ∃ t : State, agentRun (Pseudo.expand s.cfg .lcdzero) t0 s = .next t ∧
    (∀ a : Nat, t.lcdm.read a = 0x00#8) ∧
    t.mask = s.mask ∧ t.ind = s.ind ∧ t.frame = s.frame ∧ t.out = s.out ∧ t.cfg = s.cfg ∧ t.pending = s.pending

/-- `DIGIT p, v`, as the spec derives it (spec/30_encoding.md section 7, spec/90_conflicts.md C8): under both
well-formedness premises it can be assembled, and a DECODE after it gives `MASK[p] = v` and every other mask and every
indicator as a DECODE before it would have. -/
def Obligations.DigitShowsItsMaskAndNothingElse : Prop :=
  ∀ (s d : State) (p : Fin npos) (v t0 : Byte), s.cfg.MapsWF → exec .decode s = .next d →
    ∃ (cs : List AgentCmd) (t u : State), Pseudo.assemble s.cfg (.digit p v) = some cs ∧
      agentRun cs t0 s = .next t ∧ exec .decode t = .next u ∧
      u.mask[p] = v ∧ (∀ q : Fin npos, q ≠ p → u.mask[q] = d.mask[q]) ∧ u.ind = d.ind

/-- The assembler reads back the line of every well-formed command, with or without a comment (spec/30_encoding.md
section 7; the space before the comment is log entry 13). -/
def Obligations.AssemblerReadsItsOwnLines : Prop :=
  ∀ (i : Instr) (comment : List Char), i.wf = true →
    assembleLine (printLine i) = .command i ∧
    assembleLine (printLine i ++ [' ', ';'] ++ comment) = .command i

/-! ## The harness around the block -/

/-- No frame before the continuation is captured, and none at all when the entry point returns (spec/
70_reset_and_hazards.md section 2). The event system is the model's (log entry 10). -/
def Obligations.NoFrameBeforeCapture : Prop :=
  ∀ (cfg : Config) (es : List HEvent) (h : Harness), Harness.events es (Harness.initial cfg) = some h →
    (h.phase = .notStarted ∨ h.phase = .initializing ∨ HEvent.entryReturned ∈ es → h.block.out = [])

/-- One frame for each completed tick (spec/60_exceptions.md section 5), over every run of the harness (log entry 10):
`OUT` holds as many events as RENDERs were issued, one for each ended tick and one more while a tick is in its poll. -/
def Obligations.OneFramePerTick : Prop :=
  ∀ (cfg : Config) (es : List HEvent) (h : Harness), Harness.events es (Harness.initial cfg) = some h →
    h.block.out.length = es.count .render ∧
    h.block.out.length = es.countP isEndTick + (if h.phase = .looping .polling then 1 else 0)

/-- After termination nothing happens (spec/60_exceptions.md section 6), and no RENDER is issued while a draw callback
runs, nor a firmware command between its return and the end of RENDER (spec/60_exceptions.md section 5, spec/
70_reset_and_hazards.md section 3); the event system is the model's (log entry 10), and that a fatal abort too ends in `terminated` is its choice. -/
def Obligations.HarnessKeepsRenderOutsideDraw : Prop :=
  ∀ (h : Harness) (i : Instr) (e : HEvent),
    (h.phase = .terminated → h.on e = none) ∧
    (h.phase = .looping .drawing → h.on .render = none) ∧
    (h.phase = .looping .drawn → h.on (.firmware i) = none) ∧
    (h.on .render ≠ none → h.phase = .looping .drawn)
end

