-- ==== Sys2Proof/Laws/Config.lean ====
section
/-! SUPPORT. The sizes of the configuration record as numbers, and the record's own sizes. -/

namespace Sys2Proof

theorem bufLen_eq : bufLen = 13 := rfl
theorem npos_eq : npos = 8 := rfl
theorem nflag_eq : nflag = 8 := rfl
theorem glyphH_eq : glyphH = 5 := rfl
theorem nind_eq : nind = 5 := rfl
theorem glyphW_eq : glyphW = 5 := rfl
theorem leftMargin_eq : leftMargin = 3 := rfl
theorem frameH_eq : frameH = 5 := rfl
theorem frameW_eq : frameW = 43 := rfl

/-- Every configuration has the sizes the spec gives (spec/00_scope.md R6). -/
@[simp] theorem Config.sizes_eq (cfg : Config) : cfg.sizes = Sizes.spec := cfg.sizes_spec

end Sys2Proof
end

