-- ==== Sys2Proof/Laws/Decode.lean ====
section
/-! SUPPORT. The fields of a packed command word, and what each field of a word can be. -/

namespace Sys2Proof

theorem cmdOp_pack (op : BitVec 4) (idx : Nat) (data : Byte) : cmdOp (packCmd op idx data) = op := by
  unfold cmdOp packCmd
  generalize BitVec.ofNat 4 idx = x
  apply BitVec.eq_of_getLsbD_eq
  intro i hi
  simp only [BitVec.getLsbD_extractLsb', BitVec.getLsbD_append]
  simp [hi, show ¬ 12 + i < 12 by omega]

theorem cmdData_pack (op : BitVec 4) (idx : Nat) (data : Byte) : cmdData (packCmd op idx data) = data := by
  unfold cmdData packCmd
  generalize BitVec.ofNat 4 idx = x
  apply BitVec.eq_of_getLsbD_eq
  intro i hi
  simp only [BitVec.getLsbD_extractLsb', BitVec.getLsbD_append]
  simp [hi]
  omega

theorem cmdIdx_pack (op : BitVec 4) (idx : Nat) (data : Byte) (h : idx ≤ 15) :
    cmdIdx (packCmd op idx data) = idx := by
  have : (packCmd op idx data).extractLsb' 8 4 = BitVec.ofNat 4 idx := by
    unfold packCmd
    generalize BitVec.ofNat 4 idx = x
    apply BitVec.eq_of_getLsbD_eq
    intro i hi
    simp only [BitVec.getLsbD_extractLsb', BitVec.getLsbD_append]
    simp [hi, show 8 + i < 12 by omega, show ¬ 8 + i < 8 by omega]
  unfold cmdIdx
  rw [this, BitVec.toNat_ofNat]
  omega

/-- The index field is an unsigned number 0 to 15 (spec/30_encoding.md R72). -/
theorem cmdIdx_le (w : Cmd) : cmdIdx w ≤ 15 := by
  unfold cmdIdx
  have := (w.extractLsb' 8 4).isLt
  omega

/-- The operation code as a number. -/
theorem cmdOp_toNat (w : Cmd) : (cmdOp w).toNat = w.toNat / 4096 := by
  have := w.isLt
  simp only [cmdOp, BitVec.extractLsb'_toNat, Nat.shiftRight_eq_div_pow]
  omega

/-- A word is its three fields packed. -/
theorem pack_fields (w : Cmd) : packCmd (cmdOp w) (cmdIdx w) (cmdData w) = w := by
  unfold packCmd cmdOp cmdIdx cmdData
  rw [BitVec.ofNat_toNat, BitVec.setWidth_eq]
  apply BitVec.eq_of_getLsbD_eq
  intro i hi
  simp only [BitVec.getLsbD_append, BitVec.getLsbD_extractLsb']
  by_cases h1 : i < 8
  · simp [h1, show i < 12 by omega]
  · by_cases h2 : i < 12
    · simp [h1, h2, show i - 8 < 4 by omega, show 8 + (i - 8) = i by omega]
    · simp [h2, show i - 12 < 4 by omega, show 12 + (i - 12) = i by omega]

/-- The decoder rejects exactly the reserved operation codes (spec/30_encoding.md R75). -/
theorem decode_rejected_iff (w : Cmd) : (∃ r, decode w = .rejected r) ↔ 7 ≤ (cmdOp w).toNat := by
  unfold decode
  split <;> (simp_all; try omega)

end Sys2Proof
end

