-- ==== Sys2Proof/Laws/Memory.lean ====
section
/-! SUPPORT. The laws of the LCD Buffer: read after write, locality, and that every operation keeps the canonical
form. -/

namespace Sys2Proof.Machine

theorem Memory.get_erase (a b : Nat) (m : Memory) :
    (Memory.erase a m).get b = if b = a then Memory.unlisted else m.get b := by
  induction m with
  | nil => simp [Memory.erase, Memory.get]
  | cons c m ih =>
    obtain ⟨k, v⟩ := c
    by_cases hk : k = a
    · subst hk
      by_cases hb : b = k
      · subst hb; simpa [Memory.erase] using ih
      · simp [Memory.erase, Memory.get, ih, hb, Ne.symm hb]
    · by_cases hb : b = a
      · subst hb; simp [Memory.erase, Memory.get, hk, ih]
      · simp [Memory.erase, Memory.get, hk, ih, hb]

theorem Memory.get_insert (a b : Nat) (v : Byte) (m : Memory) :
    (Memory.insert a v (Memory.erase a m)).get b = if b = a then v else m.get b := by
  induction m with
  | nil => simp [Memory.erase, Memory.insert, Memory.get, @eq_comm _ a b]
  | cons c m ih =>
    obtain ⟨k, w⟩ := c
    by_cases hk : k = a
    · subst hk
      by_cases hb : b = k
      · subst hb; simpa [Memory.erase] using ih
      · simp [Memory.erase, Memory.get, ih, hb, Ne.symm hb]
    · by_cases hlt : a < k
      · by_cases hb : b = a
        · subst hb; simp [Memory.erase, Memory.insert, Memory.get, hk, hlt]
        · simp [Memory.erase, Memory.insert, Memory.get, hk, hlt, hb, Ne.symm hb, Memory.get_erase]
      · by_cases hb : b = a
        · subst hb; simp [Memory.erase, Memory.insert, Memory.get, hk, hlt, ih]
        · simp [Memory.erase, Memory.insert, Memory.get, hk, hlt, ih, hb]

/-- One byte stored: that byte reads as stored, every other as before. No premise on the list. -/
theorem Memory.get_put (m : Memory) (a b : Nat) (v : Byte) :
    (m.put a v).get b = if b = a then v else m.get b := by
  unfold Memory.put
  split
  · rename_i h; subst h; exact Memory.get_erase a b m
  · exact Memory.get_insert a b v m

/-- Everything a store does, seen through reads (spec/20_memory.md R52, R53). -/
theorem Memory.read_write (m : Memory) (a b : Nat) (v : Byte) :
    (m.write a v).read b = if b = a ∧ a < bufLen then v else m.read b := by
  unfold Memory.write Memory.read
  by_cases ha : a < bufLen
  · by_cases hb : b = a
    · subst hb; simp only [if_pos ha, Memory.get_put, true_and, if_pos trivial]
    · simp only [if_pos ha, Memory.get_put, hb, if_false, false_and]
  · simp only [if_neg ha, show ¬ (b = a ∧ a < bufLen) from fun h => ha h.2, if_false]

theorem Memory.read_write_same (m : Memory) (a : Nat) (v : Byte) (h : a < bufLen) :
    (m.write a v).read a = v := by simp [Memory.read_write, h]

theorem Memory.read_write_other (m : Memory) (a b : Nat) (v : Byte) (h : b ≠ a) :
    (m.write a v).read b = m.read b := by simp [Memory.read_write, h]

theorem Memory.write_absorbed (m : Memory) (a : Nat) (v : Byte) (h : ¬ a < bufLen) :
    m.write a v = m := by simp [Memory.write, h]

theorem Memory.read_out_of_range (m : Memory) (a : Nat) (h : ¬ a < bufLen) :
    m.read a = 0x00#8 := by simp [Memory.read, h]

/-- The canonical form of a list with one more cell in front. -/
theorem Memory.wf_cons (a : Nat) (v : Byte) (m : Memory) :
    Memory.wf ((a, v) :: m) = true ↔
      a < bufLen ∧ v ≠ Memory.unlisted ∧ (∀ c ∈ m, a < c.1) ∧ m.wf = true := by
  simp [Memory.wf, and_assoc]

theorem Memory.mem_erase (a : Nat) (m : Memory) (c : Host.Cell) (h : c ∈ Memory.erase a m) :
    c ∈ m ∧ c.1 ≠ a := by
  induction m with
  | nil => simp [Memory.erase] at h
  | cons d m ih =>
    obtain ⟨k, w⟩ := d
    by_cases hk : k = a
    · simp only [Memory.erase, hk, if_true] at h
      exact ⟨List.mem_cons_of_mem _ (ih h).1, (ih h).2⟩
    · simp only [Memory.erase, hk, if_false, List.mem_cons] at h
      rcases h with rfl | h
      · exact ⟨List.mem_cons_self, hk⟩
      · exact ⟨List.mem_cons_of_mem _ (ih h).1, (ih h).2⟩

theorem Memory.mem_insert (a : Nat) (v : Byte) (m : Memory) (c : Host.Cell) (h : c ∈ Memory.insert a v m) :
    c = (a, v) ∨ c ∈ m := by
  induction m with
  | nil => simpa [Memory.insert] using h
  | cons d m ih =>
    obtain ⟨k, w⟩ := d
    by_cases hlt : a < k
    · simp only [Memory.insert, hlt, if_true, List.mem_cons] at h
      simpa using h
    · simp only [Memory.insert, hlt, if_false, List.mem_cons] at h
      rcases h with rfl | h
      · simp
      · rcases ih h with h | h <;> simp [h]

theorem Memory.wf_erase (a : Nat) (m : Memory) (h : m.wf = true) : (Memory.erase a m).wf = true := by
  induction m with
  | nil => rfl
  | cons d m ih =>
    obtain ⟨k, w⟩ := d
    rw [Memory.wf_cons] at h
    by_cases hk : k = a
    · simpa [Memory.erase, hk] using ih h.2.2.2
    · simp only [Memory.erase, hk, if_false, Memory.wf_cons]
      exact ⟨h.1, h.2.1, fun c hc => h.2.2.1 c (Memory.mem_erase a m c hc).1, ih h.2.2.2⟩

theorem Memory.wf_insert (a : Nat) (v : Byte) (m : Memory) (h : m.wf = true) (ha : a < bufLen)
    (hv : v ≠ Memory.unlisted) (hm : ∀ c ∈ m, c.1 ≠ a) : (Memory.insert a v m).wf = true := by
  induction m with
  | nil => simp [Memory.insert, ha, hv, Memory.wf]
  | cons d m ih =>
    obtain ⟨k, w⟩ := d
    have h' := (Memory.wf_cons k w m).1 h
    by_cases hlt : a < k
    · simp only [Memory.insert, hlt, if_true]
      rw [Memory.wf_cons]
      refine ⟨ha, hv, ?_, h⟩
      intro c hc
      rcases List.mem_cons.1 hc with rfl | hc
      · exact hlt
      · exact Nat.lt_trans hlt (h'.2.2.1 c hc)
    · simp only [Memory.insert, hlt, if_false, Memory.wf_cons]
      refine ⟨h'.1, h'.2.1, ?_, ih h'.2.2.2 fun c hc => hm c (List.mem_cons_of_mem _ hc)⟩
      intro c hc
      have hne : k ≠ a := hm (k, w) List.mem_cons_self
      rcases Memory.mem_insert a v m c hc with rfl | hc
      · show k < a; omega
      · exact h'.2.2.1 c hc

/-- A store keeps the canonical form. -/
theorem Memory.wf_write (m : Memory) (a : Nat) (v : Byte) (h : m.wf = true) : (m.write a v).wf = true := by
  unfold Memory.write
  split
  · rename_i ha
    unfold Memory.put
    split
    · exact Memory.wf_erase a m h
    · rename_i hv
      exact Memory.wf_insert a v _ (Memory.wf_erase a m h) ha hv fun c hc => (Memory.mem_erase a m c hc).2
  · exact h

theorem Memory.mem_ofBytes (bs : List Byte) (a : Nat) (c : Host.Cell) (h : c ∈ Memory.ofBytes a bs) : a ≤ c.1 := by
  induction bs generalizing a with
  | nil => simp [Memory.ofBytes] at h
  | cons v bs ih =>
    unfold Memory.ofBytes at h
    split at h
    · have := ih _ h; omega
    · rcases List.mem_cons.1 h with rfl | h
      · exact Nat.le_refl _
      · have := ih _ h; omega

/-- The listed reset contents are in canonical form. -/
theorem Memory.wf_ofBytes (bs : List Byte) (a : Nat) (h : a + bs.length ≤ bufLen) :
    (Memory.ofBytes a bs).wf = true := by
  induction bs generalizing a with
  | nil => rfl
  | cons v bs ih =>
    simp only [List.length_cons] at h
    unfold Memory.ofBytes
    split
    · exact ih _ (by omega)
    · rename_i hv
      rw [Memory.wf_cons]
      refine ⟨by omega, hv, fun c hc => ?_, ih _ (by omega)⟩
      have := Memory.mem_ofBytes bs (a + 1) c hc; omega

theorem Memory.get_ofBytes (bs : List Byte) (a i : Nat) :
    (Memory.ofBytes a bs).get (a + i) = bs.getD i Memory.unlisted := by
  induction bs generalizing a i with
  | nil => simp [Memory.ofBytes, Memory.get]
  | cons v bs ih =>
    have hlow : (Memory.ofBytes (a + 1) bs).get a = Memory.unlisted := by
      clear ih
      suffices ∀ b, a < b → (Memory.ofBytes b bs).get a = Memory.unlisted from this _ (by omega)
      induction bs with
      | nil => intro b _; rfl
      | cons w bs ih =>
        intro b hb
        unfold Memory.ofBytes
        split
        · exact ih _ (by omega)
        · rw [Memory.get, if_neg (by omega)]; exact ih _ (by omega)
    unfold Memory.ofBytes
    cases i with
    | zero =>
      split
      · rename_i hv; simp [hlow, hv]
      · simp [Memory.get]
    | succ i =>
      have := ih (a + 1) i
      rw [show a + 1 + i = a + (i + 1) by omega] at this
      split
      · simpa using this
      · rw [Memory.get, if_neg (by omega)]; simpa using this

/-- Canonical lists that read alike are equal, so equal memories are equal data. -/
theorem Memory.get_head_lt (m : Memory) (a : Nat) (h : ∀ c ∈ m, a < c.1) : m.get a = Memory.unlisted := by
  induction m with
  | nil => rfl
  | cons c m ih =>
    have h1 := h c List.mem_cons_self
    rw [Memory.get, if_neg (by omega)]
    exact ih fun d hd => h d (List.mem_cons_of_mem _ hd)

theorem Memory.ext_get (m n : Memory) (hm : m.wf = true) (hn : n.wf = true) (h : ∀ a, m.get a = n.get a) : m = n := by
  induction m generalizing n with
  | nil =>
    cases n with
    | nil => rfl
    | cons d n =>
      obtain ⟨k, w⟩ := d
      have := h k
      simp [Memory.get] at this
      exact absurd this.symm ((Memory.wf_cons k w n).1 hn).2.1
  | cons c m ih =>
    obtain ⟨k, v⟩ := c
    have hm' := (Memory.wf_cons k v m).1 hm
    cases n with
    | nil =>
      have := h k
      simp [Memory.get] at this
      exact absurd this hm'.2.1
    | cons d n =>
      obtain ⟨l, w⟩ := d
      have hn' := (Memory.wf_cons l w n).1 hn
      have hkl : k = l := by
        rcases Nat.lt_trichotomy k l with hlt | heq | hlt
        · have := h k
          rw [Memory.get, if_pos rfl, Memory.get, if_neg (by omega),
            Memory.get_head_lt n k fun c hc => Nat.lt_trans hlt (hn'.2.2.1 c hc)] at this
          exact absurd this hm'.2.1
        · exact heq
        · have := h l
          rw [Memory.get, if_neg (by omega), Memory.get_head_lt m l fun c hc => Nat.lt_trans hlt (hm'.2.2.1 c hc),
            Memory.get, if_pos rfl] at this
          exact absurd this.symm hn'.2.1
      subst hkl
      have hvw : v = w := by have := h k; simpa [Memory.get] using this
      subst hvw
      congr 1
      apply ih n hm'.2.2.2 hn'.2.2.2
      intro a
      by_cases ha : k = a
      · subst ha
        rw [Memory.get_head_lt m k hm'.2.2.1, Memory.get_head_lt n k hn'.2.2.1]
      · have := h a
        rwa [Memory.get, if_neg ha, Memory.get, if_neg ha] at this

end Sys2Proof.Machine
end

