-- ==== Sys2Proof/Laws/Flags.lean ====
section
/-! SUPPORT. What Decode computes: each flag is the test of its own map entry, and nothing else. -/

namespace Sys2Proof.Machine

/-- `Test` in words (spec/41_decode.md R120). -/
theorem test_eq_true_iff (m : Memory) (e : MapEntry) : test m e = true ↔ m.read e.byte.toNat &&& e.mask ≠ 0x00#8 := by
  simp [test, entryIndex]

theorem test_out_of_range (m : Memory) (e : MapEntry) (h : ¬ e.byte.toNat < bufLen) : test m e = false := by
  simp [test, entryIndex, Memory.read_out_of_range m _ h]

/-- A test looks at one byte of the buffer. -/
theorem test_congr (m n : Memory) (e : MapEntry) (h : m.read e.byte.toNat = n.read e.byte.toNat) :
    test m e = test n e := by simp [test, entryIndex, h]

theorem SegFlag.mem_all (f : SegFlag) : f ∈ SegFlag.all := by cases f <;> decide

theorem Indicator.mem_all (k : Indicator) : k ∈ Indicator.all := by cases k <;> decide

/-- Every flag number is the number of a flag. -/
theorem SegFlag.number_surj (i : Fin nflag) : ∃ f : SegFlag, f.number = i := by
  revert i
  intro i
  have h := SegFlag.mem_all
  match i with
  | 0 => exact ⟨.segA, rfl⟩
  | 1 => exact ⟨.segB, rfl⟩
  | 2 => exact ⟨.segC, rfl⟩
  | 3 => exact ⟨.segD, rfl⟩
  | 4 => exact ⟨.segE, rfl⟩
  | 5 => exact ⟨.segF, rfl⟩
  | 6 => exact ⟨.segG, rfl⟩
  | 7 => exact ⟨.segDP, rfl⟩

theorem SegFlag.number_inj (f g : SegFlag) (h : f.number = g.number) : f = g := by
  revert h; cases f <;> cases g <;> decide

theorem Indicator.number_inj (k l : Indicator) (h : k.number = l.number) : k = l := by
  revert h; cases k <;> cases l <;> decide

/-- The eight flag bits ORed in where `t` says so show exactly `t`. -/
theorem segLit_fold (t : SegFlag → Bool) (f : SegFlag) :
    segLit (SegFlag.all.foldl (fun v g => if t g then v ||| g.bit else v) 0x00#8) f = t f := by
  simp only [SegFlag.all, List.foldl]
  have key : ∀ a b c d e g h i : Bool, t .segA = a → t .segB = b → t .segC = c → t .segD = d → t .segE = e →
      t .segF = g → t .segG = h → t .segDP = i →
      segLit (SegFlag.all.foldl (fun v g => if t g then v ||| g.bit else v) 0x00#8) f = t f := by
    intro a b c d e g h i ha hb hc hd he hg hh hi
    simp only [SegFlag.all, List.foldl, ha, hb, hc, hd, he, hg, hh, hi]
    cases f <;> simp only [ha, hb, hc, hd, he, hg, hh, hi] <;> clear ha hb hc hd he hg hh hi <;>
      revert a b c d e g h i <;> decide
  exact key _ _ _ _ _ _ _ _ rfl rfl rfl rfl rfl rfl rfl rfl

/-- The five indicator bits ORed in where `t` says so show exactly `t`. -/
theorem indLit_fold (t : Indicator → Bool) (k : Indicator) :
    indLit (Indicator.all.foldl (fun v l => if t l then v ||| l.bit else v) 0x00#8) k = t k := by
  have key : ∀ a b c d e : Bool, t .am = a → t .pm = b → t .sign = c → t .colon = d → t .batdiv = e →
      indLit (Indicator.all.foldl (fun v l => if t l then v ||| l.bit else v) 0x00#8) k = t k := by
    intro a b c d e ha hb hc hd he
    simp only [Indicator.all, List.foldl, ha, hb, hc, hd, he]
    cases k <;> simp only [ha, hb, hc, hd, he] <;> clear ha hb hc hd he <;> revert a b c d e <;> decide
  exact key _ _ _ _ _ rfl rfl rfl rfl rfl

/-- Bits 5 to 7 of the indicators are 0 (spec/41_decode.md R124). -/
theorem indTop_fold (t : Indicator → Bool) :
    Indicator.all.foldl (fun v l => if t l then v ||| l.bit else v) 0x00#8 &&& 0xE0#8 = 0x00#8 := by
  simp only [Indicator.all, List.foldl]
  generalize t .am = a
  generalize t .pm = b
  generalize t .sign = c
  generalize t .colon = d
  generalize t .batdiv = e
  revert a b c d e
  decide

/-- Everything `DecodePos` says: a flag of the mask is the test of its map entry (spec/41_decode.md R121). -/
theorem segLit_decodePos (sm : Segmap) (m : Memory) (p : Fin npos) (f : SegFlag) :
    segLit (decodePos sm m p) f = test m (sm[p][f.number]) :=
  segLit_fold (fun g => test m (sm[p][g.number])) f

/-- Everything `DecodeInd` says (spec/41_decode.md R124). -/
theorem indLit_decodeInd (im : Indmap) (m : Memory) (k : Indicator) :
    indLit (decodeInd im m) k = test m (im[k.number]) :=
  indLit_fold (fun l => test m (im[l.number])) k

theorem decodeInd_top (im : Indmap) (m : Memory) : decodeInd im m &&& 0xE0#8 = 0x00#8 :=
  indTop_fold fun l => test m (im[l.number])

@[simp] theorem decodeMasks_get (sm : Segmap) (m : Memory) (p : Nat) (h : p < npos) :
    (decodeMasks sm m)[p] = decodePos sm m ⟨p, h⟩ := by
  simp [decodeMasks]

/-- A mask is its eight flags (spec/30_encoding.md R78). -/
theorem byte_of_segLit (v : Byte) :
    SegFlag.all.foldl (fun x f => if segLit v f then x ||| f.bit else x) 0x00#8 = v := by
  revert v; decide

/-- Two masks with the same flags are equal. -/
theorem byte_ext_segLit (v w : Byte) (h : ∀ f, segLit v f = segLit w f) : v = w := by
  rw [← byte_of_segLit v, ← byte_of_segLit w]
  simp only [h]

/-- An indicator value with bits 5 to 7 zero is its five flags. -/
theorem ind_of_indLit (v : Byte) (hv : v &&& 0xE0#8 = 0x00#8) :
    Indicator.all.foldl (fun x k => if indLit v k then x ||| k.bit else x) 0x00#8 = v := by
  revert v; decide

theorem ind_ext_indLit (v w : Byte) (hv : v &&& 0xE0#8 = 0x00#8) (hw : w &&& 0xE0#8 = 0x00#8)
    (h : ∀ k, indLit v k = indLit w k) : v = w := by
  rw [← ind_of_indLit v hv, ← ind_of_indLit w hw]
  simp only [h]

end Sys2Proof.Machine
end

