-- ==== Sys2Proof/Laws/State.lean ====
section
/-! SUPPORT. One lemma for each field and each operation that updates the state: what the operation leaves in the
field. -/

namespace Sys2Proof.Machine

@[simp] theorem storeByte_cfg (s : State) (idx : Nat) (v : Byte) : (storeByte s idx v).cfg = s.cfg := rfl
@[simp] theorem storeByte_lcdm (s : State) (idx : Nat) (v : Byte) : (storeByte s idx v).lcdm = s.lcdm.write (directIndex idx) v := rfl
@[simp] theorem storeByte_mask (s : State) (idx : Nat) (v : Byte) : (storeByte s idx v).mask = s.mask := rfl
@[simp] theorem storeByte_ind (s : State) (idx : Nat) (v : Byte) : (storeByte s idx v).ind = s.ind := rfl
@[simp] theorem storeByte_frame (s : State) (idx : Nat) (v : Byte) : (storeByte s idx v).frame = s.frame := rfl
@[simp] theorem storeByte_out (s : State) (idx : Nat) (v : Byte) : (storeByte s idx v).out = s.out := rfl
@[simp] theorem storeByte_resp (s : State) (idx : Nat) (v : Byte) : (storeByte s idx v).resp = s.resp := rfl
@[simp] theorem storeByte_pending (s : State) (idx : Nat) (v : Byte) : (storeByte s idx v).pending = s.pending := rfl

@[simp] theorem decodeAll_cfg (s : State) : (decodeAll s).cfg = s.cfg := rfl
@[simp] theorem decodeAll_lcdm (s : State) : (decodeAll s).lcdm = s.lcdm := rfl
@[simp] theorem decodeAll_mask (s : State) : (decodeAll s).mask = decodeMasks s.cfg.segmap s.lcdm := rfl
@[simp] theorem decodeAll_ind (s : State) : (decodeAll s).ind = decodeInd s.cfg.indmap s.lcdm := rfl
@[simp] theorem decodeAll_frame (s : State) : (decodeAll s).frame = s.frame := rfl
@[simp] theorem decodeAll_out (s : State) : (decodeAll s).out = s.out := rfl
@[simp] theorem decodeAll_resp (s : State) : (decodeAll s).resp = s.resp := rfl
@[simp] theorem decodeAll_pending (s : State) : (decodeAll s).pending = s.pending := rfl

@[simp] theorem emit_cfg (str : List Byte) (s : State) : (emit str s).cfg = s.cfg := rfl
@[simp] theorem emit_lcdm (str : List Byte) (s : State) : (emit str s).lcdm = s.lcdm := rfl
@[simp] theorem emit_mask (str : List Byte) (s : State) : (emit str s).mask = s.mask := rfl
@[simp] theorem emit_ind (str : List Byte) (s : State) : (emit str s).ind = s.ind := rfl
@[simp] theorem emit_frame (str : List Byte) (s : State) : (emit str s).frame = s.frame := rfl
@[simp] theorem emit_out (str : List Byte) (s : State) : (emit str s).out = s.out ++ [str] := rfl
@[simp] theorem emit_resp (str : List Byte) (s : State) : (emit str s).resp = s.resp := rfl
@[simp] theorem emit_pending (str : List Byte) (s : State) : (emit str s).pending = s.pending := rfl

@[simp] theorem drawFrame_cfg (s : State) : (drawFrame s).cfg = s.cfg := rfl
@[simp] theorem drawFrame_lcdm (s : State) : (drawFrame s).lcdm = s.lcdm := rfl
@[simp] theorem drawFrame_mask (s : State) : (drawFrame s).mask = s.mask := rfl
@[simp] theorem drawFrame_ind (s : State) : (drawFrame s).ind = s.ind := rfl
@[simp] theorem drawFrame_frame (s : State) : (drawFrame s).frame = frameOf s.mask s.ind := rfl
@[simp] theorem drawFrame_out (s : State) : (drawFrame s).out = s.out := rfl
@[simp] theorem drawFrame_resp (s : State) : (drawFrame s).resp = s.resp := rfl
@[simp] theorem drawFrame_pending (s : State) : (drawFrame s).pending = s.pending := rfl

@[simp] theorem emitFrame_cfg (s : State) : (emitFrame s).cfg = s.cfg := rfl
@[simp] theorem emitFrame_lcdm (s : State) : (emitFrame s).lcdm = s.lcdm := rfl
@[simp] theorem emitFrame_mask (s : State) : (emitFrame s).mask = s.mask := rfl
@[simp] theorem emitFrame_ind (s : State) : (emitFrame s).ind = s.ind := rfl
@[simp] theorem emitFrame_frame (s : State) : (emitFrame s).frame = s.frame := rfl
@[simp] theorem emitFrame_out (s : State) : (emitFrame s).out = s.out ++ [serialise s.frame] := rfl
@[simp] theorem emitFrame_resp (s : State) : (emitFrame s).resp = s.resp := rfl
@[simp] theorem emitFrame_pending (s : State) : (emitFrame s).pending = s.pending := rfl

@[simp] theorem issue_cfg (w : Cmd) (s : State) : (issue w s).cfg = s.cfg := rfl
@[simp] theorem issue_lcdm (w : Cmd) (s : State) : (issue w s).lcdm = s.lcdm := rfl
@[simp] theorem issue_mask (w : Cmd) (s : State) : (issue w s).mask = s.mask := rfl
@[simp] theorem issue_ind (w : Cmd) (s : State) : (issue w s).ind = s.ind := rfl
@[simp] theorem issue_frame (w : Cmd) (s : State) : (issue w s).frame = s.frame := rfl
@[simp] theorem issue_out (w : Cmd) (s : State) : (issue w s).out = s.out := rfl
@[simp] theorem issue_resp (w : Cmd) (s : State) : (issue w s).resp = s.resp := rfl
@[simp] theorem issue_pending (w : Cmd) (s : State) : (issue w s).pending = s.pending ++ [w] := rfl

@[simp] theorem issueNext_cfg (w : Cmd) (s : State) : (issueNext w s).cfg = s.cfg := rfl
@[simp] theorem issueNext_lcdm (w : Cmd) (s : State) : (issueNext w s).lcdm = s.lcdm := rfl
@[simp] theorem issueNext_mask (w : Cmd) (s : State) : (issueNext w s).mask = s.mask := rfl
@[simp] theorem issueNext_ind (w : Cmd) (s : State) : (issueNext w s).ind = s.ind := rfl
@[simp] theorem issueNext_frame (w : Cmd) (s : State) : (issueNext w s).frame = s.frame := rfl
@[simp] theorem issueNext_out (w : Cmd) (s : State) : (issueNext w s).out = s.out := rfl
@[simp] theorem issueNext_resp (w : Cmd) (s : State) : (issueNext w s).resp = s.resp := rfl
@[simp] theorem issueNext_pending (w : Cmd) (s : State) : (issueNext w s).pending = w :: s.pending := rfl

@[simp] theorem resetWith_cfg (cfg : Config) : (State.resetWith cfg).cfg = cfg := rfl
@[simp] theorem resetWith_lcdm (cfg : Config) : (State.resetWith cfg).lcdm = Memory.ofBytes 0 cfg.lcdmReset.toList := rfl
@[simp] theorem resetWith_mask (cfg : Config) : (State.resetWith cfg).mask = Vector.replicate npos 0x00#8 := rfl
@[simp] theorem resetWith_ind (cfg : Config) : (State.resetWith cfg).ind = 0x00#8 := rfl
@[simp] theorem resetWith_frame (cfg : Config) : (State.resetWith cfg).frame = blankFrame := rfl
@[simp] theorem resetWith_out (cfg : Config) : (State.resetWith cfg).out = [] := rfl
@[simp] theorem resetWith_resp (cfg : Config) : (State.resetWith cfg).resp = 0x00#8 := rfl
@[simp] theorem resetWith_pending (cfg : Config) : (State.resetWith cfg).pending = [] := rfl

@[simp] theorem resetEvent_eq (s : State) : resetEvent s = State.resetWith s.cfg := rfl

end Sys2Proof.Machine
end

