-- ==== Sys2Proof/Laws/Ops.lean ====
section
/-! SUPPORT. What each shared operation, each command and one step can do, said once. -/

namespace Sys2Proof.Machine

theorem respond_next (v : Byte) (s t : State) : respond v s = .next t ↔ t = { s with resp := v } := by
  unfold respond
  constructor
  · intro h; injection h with h; exact h.symm
  · rintro rfl; rfl

theorem fetch_nil (s : State) (h : s.pending = []) : fetch s = none := by simp [fetch, h]

theorem fetch_cons (s : State) (w : Cmd) (ws : List Cmd) (h : s.pending = w :: ws) :
    fetch s = some (w, { s with pending := ws }) := by simp [fetch, h]

/-- The state after a command (spec/60_exceptions.md R200: there is exactly one). -/
def after : Instr → State → State
  | .nop, s => { s with resp := 0x00#8 }
  | .lcdwr idx data, s => { storeByte s idx data with resp := 0x00#8 }
  | .lcdrd idx, s => { s with resp := loadByte s idx }
  | .maskrd idx, s => { s with resp := maskAt s.mask idx }
  | .indrd, s => { s with resp := s.ind }
  | .decode, s => { decodeAll s with resp := 0x00#8 }
  | .render, s => { emitFrame (drawFrame (decodeAll s)) with resp := 0x00#8 }

/-- Everything a command can do. -/
theorem exec_eq_after (i : Instr) (s : State) : exec i s = .next (after i s) := by
  cases i <;> rfl

theorem exec_next_iff (i : Instr) (s t : State) : exec i s = .next t ↔ t = after i s := by
  rw [exec_eq_after]
  constructor
  · intro h; injection h with h; exact h.symm
  · rintro rfl; rfl

/-- A command never touches the configuration or the order of issue. -/
@[simp] theorem after_cfg (i : Instr) (s : State) : (after i s).cfg = s.cfg := by cases i <;> rfl

@[simp] theorem after_pending (i : Instr) (s : State) : (after i s).pending = s.pending := by cases i <;> rfl

/-- A list of commands always completes. -/
theorem execAll_eq (is : List Instr) (s : State) : execAll is s = .next (is.foldl (fun x i => after i x) s) := by
  induction is generalizing s with
  | nil => rfl
  | cons i is ih => simp [execAll, exec_eq_after, ih]

/-- What an agent's sequence leaves in the block. -/
def agentAfter : List AgentCmd → Byte → State → State
  | [], _, s => s
  | c :: cs, t, s => agentAfter cs (c.temp t (after (c.instr t) s).resp) (after (c.instr t) s)

/-- An agent's sequence always completes. -/
theorem agentRun_eq (cs : List AgentCmd) (t : Byte) (s : State) : agentRun cs t s = .next (agentAfter cs t s) := by
  induction cs generalizing t s with
  | nil => rfl
  | cons c cs ih => simp [agentRun, agentAfter, exec_eq_after, ih]

/-- Everything one step can do: nothing is pending and nothing changes; or the oldest word is a command and runs; or it
is reserved and is absorbed. -/
theorem step_cases (s t : State) (h : step s = .next t) :
    (s.pending = [] ∧ t = s) ∨
    (∃ w ws i, s.pending = w :: ws ∧ decode w = .instr i ∧ t = after i { s with pending := ws }) ∨
    (∃ w ws r, s.pending = w :: ws ∧ decode w = .rejected r ∧ t = { s with pending := ws, resp := 0x00#8 }) := by
  unfold step at h
  cases hp : s.pending with
  | nil =>
    rw [fetch_nil s hp] at h
    injection h with h
    exact .inl ⟨rfl, h.symm⟩
  | cons w ws =>
    rw [fetch_cons s w ws hp] at h
    cases hd : decode w with
    | instr i =>
      simp only [hd, exec_next_iff] at h
      exact .inr (.inl ⟨w, ws, i, rfl, hd, h⟩)
    | rejected r =>
      simp only [hd, absorbReserved, respond_next] at h
      exact .inr (.inr ⟨w, ws, r, rfl, hd, h⟩)

end Sys2Proof.Machine
end

