-- ==== Sys2Proof/Laws/PerInstr.lean ====
section
/-! SUPPORT. Statements made for each command. Family EncodeRow: the canonical word of a well-formed command carries
its row's operation code and lies below the reserved words (spec/30_encoding.md R74, R75). -/

namespace Sys2Proof.Laws.EncodeRow

/-- The operation code of the encoded word is the command's, and the word is not reserved. -/
def Statement (i : Instr) : Prop := cmdOp (encode i) = i.op ∧ (encode i).toNat < 0x7000

theorem of_op (i : Instr) (idx : Nat) (data : Byte) (he : encode i = packCmd i.op idx data)
    (h : i.op.toNat < 7) : Statement i := by
  have hop : cmdOp (encode i) = i.op := by rw [he, cmdOp_pack]
  refine ⟨hop, ?_⟩
  have := cmdOp_toNat (encode i)
  rw [hop] at this
  omega

theorem nop : Statement .nop := of_op _ _ _ rfl (by decide)
theorem lcdwr (idx : Nat) (data : Byte) : Statement (.lcdwr idx data) := of_op _ _ _ rfl (by show (0x1#4).toNat < 7; decide)
theorem lcdrd (idx : Nat) : Statement (.lcdrd idx) := of_op _ _ _ rfl (by show (0x2#4).toNat < 7; decide)
theorem maskrd (idx : Nat) : Statement (.maskrd idx) := of_op _ _ _ rfl (by show (0x3#4).toNat < 7; decide)
theorem indrd : Statement .indrd := of_op _ _ _ rfl (by decide)
theorem decode : Statement .decode := of_op _ _ _ rfl (by decide)
theorem render : Statement .render := of_op _ _ _ rfl (by decide)

end Sys2Proof.Laws.EncodeRow
end

