-- ==== Sys2Proof/Laws/Render.lean ====
section
/-! SUPPORT. What a cell of a glyph, of the composed frame and of the overlaid frame shows, and the shape of the
serialised frame. -/

namespace Sys2Proof.Machine

/-- The eight positions, written out. -/
theorem positions_eq : positions = [0, 1, 2, 3, 4, 5, 6, 7] := rfl

/-- A segment's own cell shows its character or a space (spec/42_render.md R152). -/
theorem glyphCell_owned (m : Byte) (f : SegFlag) (r c : Nat) (h : (r, c) ∈ f.cells) :
    glyphCell m r c = if segLit m f then f.char else space := by
  have key : ∀ x ∈ f.cells, glyphCell m x.1 x.2 = if segLit m f then f.char else space := by
    cases f <;> simp [SegFlag.cells, glyphCell, SegFlag.all]
  exact key (r, c) h

/-- A cell no segment owns is a space (spec/42_render.md R152). -/
theorem glyphCell_unowned (m : Byte) (r c : Nat) (h : ∀ f : SegFlag, (r, c) ∉ f.cells) :
    glyphCell m r c = space := by
  simp [glyphCell, SegFlag.all, h]

@[simp] theorem glyph_get (m : Byte) (r c : Nat) (hr : r < glyphH) (hc : c < glyphW) :
    (glyph m)[r][c] = glyphCell m r c := by
  simp [glyph]

@[simp] theorem compose_get (masks : Vector Byte npos) (r c : Nat) (hr : r < frameH) (hc : c < frameW) :
    (compose masks)[r][c] = composeCell masks r c := by simp [compose]

@[simp] theorem overlay_get (ind : Byte) (fr : Frame) (r c : Nat) (hr : r < frameH) (hc : c < frameW) :
    (overlay ind fr)[r][c] = overlayCell ind r c (fr[r][c]) := by simp [overlay]

/-- The cell of a frame (spec/42_render.md R161). -/
@[simp] theorem frameOf_get (masks : Vector Byte npos) (ind : Byte) (r c : Nat) (hr : r < frameH) (hc : c < frameW) :
    (frameOf masks ind)[r][c] = overlayCell ind r c (composeCell masks r c) := by simp [frameOf]

theorem inPosition_iff (p : Fin npos) (c : Nat) :
    inPosition p c = true ↔ 3 + 5 * (7 - p.val) ≤ c ∧ c < 3 + 5 * (7 - p.val) + 5 := by
  unfold inPosition col
  rw [Bool.and_eq_true, decide_eq_true_iff, decide_eq_true_iff]
  exact Iff.rfl

/-- The left margin is blank after `Compose()` (spec/42_render.md R158). -/
theorem composeCell_margin (masks : Vector Byte npos) (r c : Nat) (h : c < leftMargin) :
    composeCell masks r c = space := by
  have hp : ∀ p : Fin npos, inPosition p c = false := by
    intro p
    rw [Bool.eq_false_iff, ne_eq, inPosition_iff]
    simp only [leftMargin] at h
    omega
  simp [composeCell, positions_eq, hp]

/-- The columns of a position show its glyph (spec/42_render.md R158). -/
theorem composeCell_position (masks : Vector Byte npos) (p : Fin npos) (r c : Nat) (h : c < glyphW) :
    composeCell masks r (col p + c) = glyphCell masks[p] r c := by
  have hq : ∀ q : Fin npos, inPosition q (col p + c) = decide (q = p) := by
    intro q
    rw [Bool.eq_iff_iff, inPosition_iff, decide_eq_true_iff]
    simp only [col, leftMargin, glyphW, npos] at *
    by_cases hqp : q = p
    · subst hqp; simp; omega
    · have : q.val ≠ p.val := fun h => hqp (Fin.ext h)
      have h1 := q.isLt
      have h2 := p.isLt
      simp only [npos] at h1 h2
      simp only [hqp, iff_false]
      omega
  simp only [composeCell, positions_eq, hq, List.foldl]
  have : p = 0 ∨ p = 1 ∨ p = 2 ∨ p = 3 ∨ p = 4 ∨ p = 5 ∨ p = 6 ∨ p = 7 := by clear hq; revert p; decide
  rcases this with rfl | rfl | rfl | rfl | rfl | rfl | rfl | rfl <;> simp

/-- Every digit column belongs to a position (spec/42_render.md R158: together they cover columns 3 to 42). -/
theorem column_cases (c : Nat) (h : c < frameW) :
    c < leftMargin ∨ ∃ (p : Fin npos) (k : Nat), k < glyphW ∧ c = col p + k := by
  by_cases hm : c < leftMargin
  · exact .inl hm
  · refine .inr ⟨⟨7 - (c - 3) / 5, by simp only [npos]; omega⟩, (c - 3) % 5, ?_, ?_⟩
    · simp only [glyphW]; omega
    · simp only [col, leftMargin, glyphW, npos, frameW] at *; omega

/-- An indicator's own cell shows its character or what was there (spec/42_render.md R160). -/
theorem overlayCell_owned (ind : Byte) (k : Indicator) (r c : Nat) (x ch : Byte) (h : (r, c, ch) ∈ k.glyph) :
    overlayCell ind r c x = if indLit ind k then ch else x := by
  have key : ∀ t ∈ k.glyph, overlayCell ind t.1 t.2.1 x = if indLit ind k then t.2.2 else x := by
    cases k <;> simp [overlayCell, Indicator.all, Indicator.glyph, paint]
  exact key (r, c, ch) h

/-- A cell of no indicator keeps what `Compose()` left (spec/42_render.md R160). -/
theorem overlayCell_unowned (ind : Byte) (r c : Nat) (x : Byte) (h : ∀ (k : Indicator) (ch : Byte), (r, c, ch) ∉ k.glyph) :
    overlayCell ind r c x = x := by
  have hp : ∀ (k : Indicator) (y : Byte), paint k.glyph r c y = y := by
    intro k y
    have hk := h k
    cases k <;> simp [Indicator.glyph] at hk <;> simp [paint, Indicator.glyph] <;> grind
  simp [overlayCell, Indicator.all, hp]

theorem serialiseRow_length (row : Vector Byte frameW) : (serialiseRow row).length = 45 := by
  simp [serialiseRow, rowEol]

theorem flatMap_rows_length (rows : List (Vector Byte frameW)) :
    (rows.flatMap serialiseRow).length = 45 * rows.length := by
  induction rows with
  | nil => rfl
  | cons row rows ih => simp only [List.flatMap_cons, List.length_append, ih, serialiseRow_length, List.length_cons]; omega

/-- A frame event is 228 bytes whatever is lit (spec/42_render.md R163). -/
theorem serialise_length (fr : Frame) : (serialise fr).length = 228 := by
  rw [serialise, List.length_append, flatMap_rows_length]
  simp [framePrefix, frameH]

theorem flatMap_rows_injective (xs ys : List (Vector Byte frameW)) (hl : xs.length = ys.length)
    (h : xs.flatMap serialiseRow = ys.flatMap serialiseRow) : xs = ys := by
  induction xs generalizing ys with
  | nil => cases ys with
    | nil => rfl
    | cons y ys => simp at hl
  | cons x xs ih => cases ys with
    | nil => simp at hl
    | cons y ys =>
      simp only [List.flatMap_cons] at h
      have h' := List.append_inj h (by simp [serialiseRow_length])
      have hxy : x = y := Vector.toList_inj.1 (List.append_inj_left h'.1 (by simp))
      rw [hxy, ih ys (by simpa using hl) h'.2]

/-- The event determines the frame (spec/42_render.md R163). -/
theorem serialise_injective (fr fr' : Frame) (h : serialise fr = serialise fr') : fr = fr' := by
  have h' := List.append_cancel_left h
  exact Vector.toList_inj.1 (flatMap_rows_injective _ _ (by simp) h')

end Sys2Proof.Machine
end

