-- ==== Sys2Proof/Tests/Slice0.lean ====
section
/-! SUPPORT. Small tests. Expected results are the vectors of spec/95_test_vectors.md (named V-..., P...) or hand
calculation from the rules; words are written out from the encodings of spec/30_encoding.md. The last part gives, for
each statement with hypotheses, a state and operands that meet them. -/

namespace Sys2Proof.Tests

open Sys2Proof.Machine Sys2Proof.Safety Sys2Proof.Claims

/-! ## Fixtures (spec/95_test_vectors.md section 2) -/

/-- A position that lives wholly in byte `b`: the byte is the mask. -/
def linearRow (b : Byte) : Vector MapEntry nflag :=
  #v[⟨b, 0x01#8⟩, ⟨b, 0x02#8⟩, ⟨b, 0x04#8⟩, ⟨b, 0x08#8⟩, ⟨b, 0x10#8⟩, ⟨b, 0x20#8⟩, ⟨b, 0x40#8⟩, ⟨b, 0x80#8⟩]

def linearIndmap : Indmap :=
  #v[⟨8#8, 0x01#8⟩, ⟨8#8, 0x02#8⟩, ⟨8#8, 0x04#8⟩, ⟨8#8, 0x08#8⟩, ⟨8#8, 0x10#8⟩]

/-- CFG_LINEAR. -/
def cfgLinear : Config :=
  { segmap := #v[linearRow 0#8, linearRow 1#8, linearRow 2#8, linearRow 3#8, linearRow 4#8, linearRow 5#8,
      linearRow 6#8, linearRow 7#8]
    indmap := linearIndmap
    lcdmReset := Config.lcdmResetDefault
    tickHz := 1 }

/-- CFG_OOR, deliberately ill-formed: position 7 has byte-index 13. -/
def cfgOor : Config :=
  { cfgLinear with
    segmap := #v[linearRow 6#8, linearRow 7#8, linearRow 8#8, linearRow 9#8, linearRow 10#8, linearRow 11#8,
      linearRow 12#8, linearRow 13#8] }

/-- An even position of CFG_GWCAND: byte `b`, flags E and F in byte `b - 1` (spec/93_implementation_defined.md G1). -/
def gwEven (b : Byte) : Vector MapEntry nflag :=
  #v[⟨b, 0x04#8⟩, ⟨b, 0x40#8⟩, ⟨b, 0x20#8⟩, ⟨b, 0x01#8⟩, ⟨b - 1#8, 0x10#8⟩, ⟨b - 1#8, 0x20#8⟩, ⟨b, 0x02#8⟩, ⟨b, 0x10#8⟩]

/-- An odd position of CFG_GWCAND: byte `b`, flags B, C, DP in byte `b + 1`; `a` is flag A's entry. -/
def gwOdd (b : Byte) (a : MapEntry) : Vector MapEntry nflag :=
  #v[a, ⟨b + 1#8, 0x04#8⟩, ⟨b + 1#8, 0x02#8⟩, ⟨b, 0x10#8⟩, ⟨b, 0x01#8⟩, ⟨b, 0x02#8⟩, ⟨b, 0x20#8⟩, ⟨b + 1#8, 0x01#8⟩]

/-- CFG_GWCAND: an irregular well-formed map; every indicator entry out of range. -/
def cfgGwcand : Config :=
  { cfgLinear with
    segmap := #v[gwEven 11#8, gwOdd 9#8 ⟨9#8, 0x40#8⟩, gwEven 8#8, gwOdd 6#8 ⟨6#8, 0x40#8⟩, gwEven 5#8,
      gwOdd 3#8 ⟨12#8, 0x02#8⟩, gwEven 2#8, gwOdd 0#8 ⟨0#8, 0x40#8⟩]
    indmap := Vector.replicate nind ⟨0xFF#8, 0x00#8⟩ }

/-- The reset state of a configuration with the buffer given as 13 bytes. -/
def withBytes (cfg : Config) (bs : List Byte) : State :=
  { State.resetWith cfg with lcdm := Memory.ofBytes 0 bs }

def allOnes : List Byte := List.replicate 13 0xFF#8

/-- What a test looks at in the outcome of a command. -/
def see {α : Type} (f : State → α) : Host.Outcome State Fault Refusal → Option α
  | .next s => some (f s)
  | .fault _ => none
  | .refused _ => none

/-- A picture row as bytes. -/
def bytes (ns : List Nat) : List Byte := ns.map fun n => BitVec.ofNat 8 n

def blanks (n : Nat) : List Byte := List.replicate n 0x20#8

/-! ## Well-formedness smoke: each check refuses an ill-formed term -/

theorem test_wf_lcdwr : Instr.wf (.lcdwr 16 0x00#8) = false ∧ Instr.wf (.lcdwr 15 0xFF#8) = true := by decide
theorem test_wf_lcdrd : Instr.wf (.lcdrd 16) = false ∧ Instr.wf (.lcdrd 15) = true := by decide
theorem test_wf_maskrd : Instr.wf (.maskrd 16) = false ∧ Instr.wf (.maskrd 15) = true := by decide
theorem test_segmap_linear_wf : cfgLinear.segmap.WF := by decide
theorem test_indmap_linear_wf : cfgLinear.indmap.WF cfgLinear.segmap := by decide
theorem test_segmap_gwcand_wf : cfgGwcand.segmap.WF := by decide
theorem test_segmap_out_of_range_refused : ¬ cfgOor.segmap.InRange := by decide
theorem test_segmap_two_bits_refused :
    ¬ Segmap.AllOneHot (cfgLinear.segmap.set 3 ((linearRow 3#8).set 2 ⟨3#8, 0x06#8⟩)) := by decide
theorem test_segmap_shared_bit_refused :
    ¬ Segmap.Distinct (cfgLinear.segmap.set 1 ((linearRow 1#8).set 0 ⟨0#8, 0x01#8⟩)) := by decide
theorem test_indmap_out_of_range_refused : ¬ cfgGwcand.indmap.InRange := by decide
theorem test_indmap_no_bit_refused : ¬ cfgGwcand.indmap.AllOneHot := by decide
theorem test_indmap_shared_bit_refused : ¬ Indmap.Distinct (linearIndmap.set 4 ⟨8#8, 0x01#8⟩) := by decide
theorem test_indmap_inside_digit_map_refused : ¬ cfgOor.indmap.Outside cfgOor.segmap := by decide
theorem test_tick_rate_refused : ¬ Config.TickWF { cfgLinear with tickHz := 5 } ∧ cfgLinear.TickWF := by decide

/-! ## Decoding, words written out bit by bit (V-E1, V-E2, V-E3) -/

theorem test_decode_nop : decode 0b0000111111111111#16 = .instr .nop := by decide
theorem test_decode_lcdwr : decode 0b0001011000111111#16 = .instr (.lcdwr 6 0x3F#8) := by decide
theorem test_decode_lcdrd : decode 0b0010011010100101#16 = .instr (.lcdrd 6) := by decide
theorem test_decode_maskrd : decode 0b0011100000010010#16 = .instr (.maskrd 8) := by decide
theorem test_decode_indrd : decode 0b0100101010111100#16 = .instr .indrd := by decide
theorem test_decode_decode : decode 0b0101000100100011#16 = .instr .decode := by decide
theorem test_decode_render : decode 0b0110111111111111#16 = .instr .render := by decide
theorem test_decode_reserved : decode 0x7000#16 = .rejected (.reservedOp 0x7#4) ∧
    decode 0xFFFF#16 = .rejected (.reservedOp 0xF#4) := by decide
theorem test_encode : encode (.lcdwr 12 0xFF#8) = 0x1CFF#16 ∧ encode (.lcdwr 15 0xFF#8) = 0x1FFF#16 ∧
    encode (.lcdrd 12) = 0x2C00#16 ∧ encode (.maskrd 7) = 0x3700#16 ∧ encode .indrd = 0x4000#16 := by decide
theorem test_table_word : decodeTableWord 16 0x163F = some (.lcdwr 6 0x3F#8) ∧ decodeTableWord 16 0x7ABC = none := by
  decide

/-! ## Commands -/

theorem test_nop_step : see State.resp (step (State.withFetchWord { State.resetWith cfgLinear with resp := 0xFF#8 } 16 0x0FFF)) =
    some 0x00#8 := by decide

/-- V-B3. -/
theorem test_lcdwr_neighbour : see (fun s => (s.lcdm.read 12, s.lcdm.read 11))
    (exec (.lcdwr 12 0xFF#8) (State.resetWith cfgLinear)) = some (0xFF#8, 0x00#8) := by decide
/-- V-B5: absorbed, no wrap. -/
theorem test_lcdwr_absorbed : see (fun s => s.lcdm) (exec (.lcdwr 15 0x01#8) (State.resetWith cfgLinear)) =
    some [] := by decide
/-- Storing zero leaves the canonical form: nothing listed (log entry 9). -/
theorem test_lcdwr_zero_unlists : see (fun s => s.lcdm) (exec (.lcdwr 3 0x00#8) (withBytes cfgLinear [0#8, 0#8, 0#8, 9#8])) =
    some [] := by decide

/-- V-B12. -/
theorem test_lcdrd_reset : see State.resp
    (exec (.lcdrd 4) (State.resetWith { cfgLinear with lcdmReset := Vector.replicate bufLen 0xAA#8 })) =
    some 0xAA#8 := by decide
/-- V-B4. -/
theorem test_lcdrd_out_of_range : see State.resp (exec (.lcdrd 13) (withBytes cfgLinear allOnes)) = some 0x00#8 := by
  decide

/-- V-D8: a position in range, and position 8. -/
theorem test_maskrd : see State.resp (exec (.maskrd 7) { State.resetWith cfgLinear with mask := Vector.replicate npos 0x66#8 }) =
    some 0x66#8 ∧
    see State.resp (exec (.maskrd 8) { State.resetWith cfgLinear with mask := Vector.replicate npos 0x66#8 }) =
    some 0x00#8 := by decide
/-- V-B11: a store does not decode. -/
theorem test_maskrd_stale : see State.resp (exec (.maskrd 5) (withBytes cfgLinear allOnes)) = some 0x00#8 := by decide

theorem test_indrd : see State.resp (exec .indrd { State.resetWith cfgLinear with ind := 0x0A#8 }) = some 0x0A#8 := by decide

/-- V-D2. -/
theorem test_decode_linear : see (fun s => (s.mask.toList, s.ind)) (exec .decode (withBytes cfgLinear
      (bytes [0x3F, 0x3F, 0x00, 0x3F, 0x4F, 0x00, 0x66, 0x06, 0x0A, 0, 0, 0, 0]))) =
    some (bytes [0x3F, 0x3F, 0x00, 0x3F, 0x4F, 0x00, 0x66, 0x06], 0x0A#8) := by decide
/-- V-D4, third row, a shared byte of the irregular map. -/
theorem test_decode_gwcand : see (fun s => (s.mask.toList, s.ind)) (exec .decode (withBytes cfgGwcand
      (bytes [0, 0, 0, 0, 0, 0, 0, 0, 0, 0, 0x37, 0, 0]))) =
    some (bytes [0x30, 0x86, 0, 0, 0, 0, 0, 0], 0x00#8) := by decide
/-- V-D5: position 7 out of range. -/
theorem test_decode_oor : see (fun s => (s.mask.toList, s.ind)) (exec .decode (withBytes cfgOor allOnes)) =
    some (bytes [0xFF, 0xFF, 0xFF, 0xFF, 0xFF, 0xFF, 0xFF, 0x00], 0x1F#8) := by decide

/-- V-R4: rows 0, 2 and 4 of the ordering check. -/
theorem test_render_order : see (fun s => (s.frame[0].toList, s.frame[2].toList, s.frame[4].toList))
      (exec .render (withBytes cfgLinear (bytes [0x80, 0, 0, 0, 0, 0, 0, 0x40, 0x15]))) =
    some (bytes [0x41, 0x4D] ++ blanks 41, bytes [0x2D, 0x20, 0x20, 0x20, 0x2D, 0x2D] ++ blanks 37,
      bytes [0x2F] ++ blanks 41 ++ bytes [0x2E]) := by decide
/-- V-R7: the 228 bytes of the "0" at position 6, through the irregular map (P2's end state, RENDER). -/
theorem test_render_event : see State.out (exec .render (withBytes cfgGwcand (bytes [0, 0x30, 0x65]))) =
    some [bytes [0x1B, 0x5B, 0x48] ++
      (blanks 9 ++ bytes [0x2D, 0x2D] ++ blanks 32 ++ bytes [0x0D, 0x0A]) ++
      (blanks 8 ++ bytes [0x7C, 0x20, 0x20, 0x7C] ++ blanks 31 ++ bytes [0x0D, 0x0A]) ++
      (blanks 43 ++ bytes [0x0D, 0x0A]) ++
      (blanks 8 ++ bytes [0x7C, 0x20, 0x20, 0x7C] ++ blanks 31 ++ bytes [0x0D, 0x0A]) ++
      (blanks 9 ++ bytes [0x2D, 0x2D] ++ blanks 32 ++ bytes [0x0D, 0x0A])] := by decide +kernel
/-- V-R6: a row with the colon, `LCDM_RESET` not zero. -/
theorem test_render_colon : see (fun s => s.frame[3].toList)
      (exec .render (State.resetWith { cfgLinear with lcdmReset := Vector.replicate bufLen 0xAA#8 })) =
    some (blanks 12 ++ bytes [0x6F] ++ blanks 30) := by decide

/-- P4: a reserved word has no effect but its response. -/
theorem test_reserved_step : see (fun s => (s.resp, s.lcdm, s.pending))
      (step (State.withFetchWord { State.resetWith cfgOor with resp := 0xFF#8 } 16 0x7ABC)) =
    some (0x00#8, [], []) := by decide

/-- The first step after reset runs the word placed for it, with the open maps too. -/
theorem test_first_step : step (State.withFetchWord State.reset 16 0x6ABC) = exec .render State.reset := rfl

/-- V-R1: the "0" with point. -/
theorem test_glyph : (glyph 0xBF#8).toList.map (fun row => row.toList) =
    [bytes [0x20, 0x2D, 0x2D, 0x20, 0x20], bytes [0x7C, 0x20, 0x20, 0x7C, 0x20], blanks 5,
     bytes [0x7C, 0x20, 0x20, 0x7C, 0x20], bytes [0x20, 0x2D, 0x2D, 0x20, 0x2E]] := by decide

/-- V-R2. -/
theorem test_columns : positions.map col = [38, 33, 28, 23, 18, 13, 8, 3] := by decide

/-- V-D1. -/
theorem test_bit_test : [(2, 0x04), (2, 0x02), (2, 0x60), (2, 0x1A), (2, 0x00), (3, 0xFF), (13, 0xFF), (255, 0xFF)].map
    (fun x : Nat × Nat => test [(2, 0x65#8)] ⟨BitVec.ofNat 8 x.1, BitVec.ofNat 8 x.2⟩) =
    [true, false, true, false, false, false, false, false] := by decide

/-- V-B7, V-B8. -/
theorem test_lcdset_lcdclr :
    see (fun s => s.lcdm) (agentRun (Pseudo.expand cfgLinear (.lcdset 3 0x01#8)) 0x00#8 (withBytes cfgLinear (bytes [0, 0, 0, 0x10]))) =
      some [(3, 0x11#8)] ∧
    see (fun s => s.lcdm) (agentRun (Pseudo.expand cfgLinear (.lcdclr 3 0x81#8)) 0x00#8 (withBytes cfgLinear (bytes [0, 0, 0, 0xFF]))) =
      some [(3, 0x7E#8)] := by decide

/-- P2: DIGIT 6, 0x3F on the irregular map. -/
theorem test_digit_gwcand :
    see (fun s => s.lcdm) (agentRun (Pseudo.expand cfgGwcand (.digit 6 0x3F#8)) 0x00#8 (State.resetWith cfgGwcand)) =
      some [(1, 0x30#8), (2, 0x65#8)] := by decide

/-- V-E1 as text, with a comment; an index and a byte that do not fit. -/
theorem test_assembler :
    assembleWord ['L', 'C', 'D', 'W', 'R', ' ', '6', ',', ' ', '0', 'x', '3', 'F', ' ', ';', 'd'] = some 0x163F#16 ∧
    assembleWord ['D', 'E', 'C', 'O', 'D', 'E'] = some 0x5000#16 ∧
    assembleLine ['L', 'C', 'D', 'R', 'D', ' ', '1', '6'] = .error .idxTooBig ∧
    assembleLine ['L', 'C', 'D', 'W', 'R', ' ', '1', ',', ' ', '0', 'x', '1', '0', '0'] = .error .dataTooBig := by decide

/-! ## Witnesses: each statement's hypotheses can be met -/

/-- `EveryStepKeepsInvariant`: the reset state meets the invariant and steps. -/
theorem witness_invariant : Inv (State.resetWith cfgLinear) ∧
    step (State.resetWith cfgLinear) = .next (State.resetWith cfgLinear) :=
  ⟨⟨by decide, by decide, by decide, fun e h => absurd h List.not_mem_nil, rfl⟩, rfl⟩

theorem witness_wellFormed_command : Instr.wf (.lcdwr 15 0xFF#8) = true ∧ Instr.wf (.lcdrd 0) = true := by decide

/-- `DecoderFollowsOpcodeTable`, `IgnoredFieldsDoNotMatter`: a word for each row; words that differ in ignored bits. -/
theorem witness_rows : [0x0FFF#16, 0x1FFF#16, 0x2D5A#16, 0x3FFF#16, 0x4ABC#16, 0x5123#16, 0x6FFF#16].map (fun w => w &&& 0xF000#16) =
    [0x0000#16, 0x1000#16, 0x2000#16, 0x3000#16, 0x4000#16, 0x5000#16, 0x6000#16] ∧
    decode 0x26A5#16 = .instr (.lcdrd 6) ∧ 0x2600#16 &&& usedBits .x = 0x26A5#16 &&& usedBits .x := by decide

theorem witness_reserved_pending : (issueNext 0x7000#16 (State.resetWith cfgLinear)).pending = 0x7000#16 :: [] ∧
    0x7000 ≤ (0x7000#16).toNat := by decide

theorem witness_pending_command : (issueNext 0x163F#16 (State.resetWith cfgLinear)).pending = 0x163F#16 :: [] ∧
    decode 0x163F#16 = .instr (.lcdwr 6 0x3F#8) := by decide

theorem witness_idle : (State.resetWith cfgLinear).pending = [] := rfl

/-- `ResetAndStepsKeepTheConfiguration`, `OutGrowsOnlyByRenderedFrames`, `TickRateDecidesNothing`: a step that renders and one
that does not. -/
theorem witness_steps : (∃ t, step (State.withFetchWord (State.resetWith cfgLinear) 16 0x6000) = .next t) ∧
    (issueNext 0x6000#16 (State.resetWith cfgLinear)).pending = 0x6000#16 :: [] ∧ decode 0x6000#16 = .instr .render ∧
    decode 0x5000#16 ≠ .instr .render ∧
    ∃ t, step (State.withFetchWord (State.resetWith cfgLinear) 16 0x5000) = .next t :=
  ⟨⟨_, rfl⟩, rfl, by decide, by decide, ⟨_, rfl⟩⟩

/-- `EachStateHasItsOwnWriters`: a command that is none of the writers, and each writer, has a next state. -/
theorem witness_writers (s : State) : (∃ t, exec .nop s = .next t) ∧ (∃ t, exec (.lcdwr 0 0xFF#8) s = .next t) ∧
    (∃ t, exec .decode s = .next t) ∧ ∃ t, exec .render s = .next t := ⟨⟨_, rfl⟩, ⟨_, rfl⟩, ⟨_, rfl⟩, ⟨_, rfl⟩⟩

/-- The index ranges of LCDWR, LCDRD and LCDSET: both ranges at their edges, and no index in both. -/
theorem witness_buffer_ranges : (12 : Nat) ≤ 12 ∧ 13 ≤ 13 ∧ (13 : Nat) ≤ 15 ∧ 12 < bufLen ∧ bufLen ≤ 13 ∧
    ∀ i : Fin 16, ¬ (i.val ≤ 12 ∧ 13 ≤ i.val) := by decide

/-- The index ranges of MASKRD. -/
theorem witness_mask_ranges : 7 < npos ∧ (8 : Nat) ≤ 8 ∧ (8 : Nat) ≤ 15 ∧ ∀ i : Fin 16, ¬ (i.val < npos ∧ 8 ≤ i.val) := by decide

/-- The last and first words of NOP, INDRD, DECODE and RENDER. -/
theorem witness_format_z_words : (0x0FFF#16).toNat ≤ 0x0FFF ∧ (0x4FFF#16).toNat / 4096 = 4 ∧ (0x5000#16).toNat / 4096 = 5 ∧
    (0x6FFF#16).toNat / 4096 = 6 := by decide

/-- `BitTestIsAndThenNonZero`: entries at byte-index 12 and 13. -/
theorem witness_entry_ranges : (MapEntry.mk 12#8 0x01#8).byte.toNat < bufLen ∧ bufLen ≤ (MapEntry.mk 13#8 0x01#8).byte.toNat := by
  decide

/-- `LatestStoreIsRead`: entries in range, of both maps. -/
theorem witness_latest_store : (cfgLinear.segmap[(7 : Fin npos)][(0 : Fin nflag)]).byte.toNat < bufLen ∧
    (cfgLinear.indmap[(4 : Fin nind)]).byte.toNat < bufLen ∧
    latestStore 3 [.lcdwr 3 0x10#8, .lcdwr 3 0x01#8, .lcdwr 4 0x77#8] = some 0x01#8 := by decide

/-- An indicator map of irregular entries: two mask bits, the same bit twice, no bit. -/
def irregularIndmap : Indmap := #v[⟨0#8, 0x03#8⟩, ⟨5#8, 0x01#8⟩, ⟨5#8, 0x01#8⟩, ⟨3#8, 0x00#8⟩, ⟨13#8, 0x01#8⟩]

/-- `IrregularEntriesHaveDefinedFlags`: an entry out of range; a zero mask; two mask bits, one set; a shared entry; an
indicator out of range; an indicator inside the digit map. -/
theorem witness_irregular : bufLen ≤ (cfgOor.segmap[(7 : Fin npos)][(0 : Fin nflag)]).byte.toNat ∧
    (⟨0#8, 0x00#8⟩ : MapEntry).mask = 0x00#8 ∧
    ((⟨0#8, 0x03#8⟩ : MapEntry).mask.getLsbD 1 = true ∧ ((withBytes cfgLinear [0x02#8]).lcdm.read 0).getLsbD 1 = true) ∧
    ((cfgLinear.segmap.set 1 ((linearRow 1#8).set 0 ⟨0#8, 0x01#8⟩))[(1 : Fin npos)][(0 : Fin nflag)] =
      cfgLinear.segmap[(0 : Fin npos)][(0 : Fin nflag)]) ∧
    bufLen ≤ (cfgGwcand.indmap[(0 : Fin nind)]).byte.toNat ∧
    cfgOor.indmap[(0 : Fin nind)] = cfgOor.segmap[(2 : Fin npos)][(0 : Fin nflag)] := by decide

/-- `IrregularEntriesHaveDefinedFlags`, indicators: a zero mask, two mask bits of which one is set, a shared entry; and
the flags R201 gives them. -/
theorem witness_irregular_indicators : (irregularIndmap[(3 : Fin nind)]).mask = 0x00#8 ∧
    (irregularIndmap[(0 : Fin nind)]).mask.getLsbD 1 = true ∧ (Memory.read [(0, 0x02#8)] 0).getLsbD 1 = true ∧
    irregularIndmap[(1 : Fin nind)] = irregularIndmap[(2 : Fin nind)] ∧
    see State.ind (exec .decode (withBytes { cfgLinear with indmap := irregularIndmap }
      (bytes [0x02, 0, 0, 0xFF, 0, 0x01]))) = some 0x07#8 := by decide

/-- Maps well-formed, and the buffer of one mapped bit: the round trip's hypotheses, both clauses. -/
theorem witness_round_trip : cfgLinear.segmap.WF ∧ cfgLinear.indmap.WF cfgLinear.segmap ∧
    ∀ i, i < bufLen → (withBytes cfgLinear (bytes [0, 0, 0, 0, 0, 0, 0x20])).lcdm.read i =
      if i = (cfgLinear.segmap[(6 : Fin npos)][(5 : Fin nflag)]).byte.toNat then
        (cfgLinear.segmap[(6 : Fin npos)][(5 : Fin nflag)]).mask else 0x00#8 :=
  ⟨test_segmap_linear_wf, test_indmap_linear_wf, by decide⟩

theorem witness_maps_wf : cfgLinear.MapsWF := ⟨test_segmap_linear_wf, test_indmap_linear_wf⟩

/-- `DecodeDistributesOverOr` (V-D9). -/
theorem witness_or : ∀ i, i < bufLen → (withBytes cfgGwcand (bytes [0, 0x30, 0x65])).lcdm.read i =
    (withBytes cfgGwcand (bytes [0, 0x30])).lcdm.read i ||| (withBytes cfgGwcand (bytes [0, 0, 0x65])).lcdm.read i := by
  decide

/-- `ZeroAndOnesBuffersDecode`. -/
theorem witness_zero_and_ones : (∀ i, i < bufLen → (State.resetWith cfgLinear).lcdm.read i = 0x00#8) ∧
    (withBytes cfgLinear allOnes).cfg.MapsWF ∧ ∀ i, i < bufLen → (withBytes cfgLinear allOnes).lcdm.read i = 0xFF#8 :=
  ⟨by decide, witness_maps_wf, by decide⟩

/-- `UnnamedBitsHaveNoEffect`, `FramesDetermineTheNamedBits`, `EqualBuffersEmitEqualFrames`: two buffers that differ in a
bit no map names (bits 0x8C of byte 0 of the irregular map). -/
theorem witness_named_bits : SameNamedBits cfgGwcand [] [(0, 0x8C#8)] ∧ SameFlags cfgGwcand [] [(0, 0x8C#8)] ∧ SameBytes [] ([] : Memory) ∧
    ∃ s' x', exec .render (State.resetWith cfgGwcand) = .next s' ∧ exec .render (withBytes cfgGwcand [0x8C#8]) = .next x' ∧
      s'.out = [] ++ [serialise s'.frame] ∧ x'.out = [] ++ [serialise x'.frame] :=
  ⟨by unfold SameNamedBits; decide, by unfold SameFlags Lit; decide, fun _ _ => rfl, _, _, rfl, rfl, rfl, rfl⟩

/-- `SixBitsOfPositionSixRenderZero`: the linear map with byte 6 at 0x3F. -/
theorem witness_six_bits : (withBytes cfgLinear (bytes [0, 0, 0, 0, 0, 0, 0x3F])).cfg.MapsWF ∧
    ∀ i, i < bufLen → (withBytes cfgLinear (bytes [0, 0, 0, 0, 0, 0, 0x3F])).lcdm.read i =
      bytesOf [cfgLinear.segmap[6][0], cfgLinear.segmap[6][1], cfgLinear.segmap[6][2], cfgLinear.segmap[6][3],
        cfgLinear.segmap[6][4], cfgLinear.segmap[6][5]] i := ⟨witness_maps_wf, by decide⟩

/-- `ComposePlacesEachGlyph`, `OverlayWritesLitIndicators`: a cell of no indicator. -/
theorem witness_plain_cell : ((1, 13) : Nat × Nat) ∉ [(0, 0), (0, 1), (1, 0), (1, 1), (2, 0), (1, 12), (3, 12), (4, 0)] := by
  decide

/-- `GlyphsAreDistinct`: two equal glyphs. -/
theorem witness_glyph : glyph 0x3F#8 = glyph (0x1F#8 ||| 0x20#8) := by decide

/-- `FrameCellsAreLocal`: a digit cell, the point's cell, and a gap cell that is not the colon's. -/
theorem witness_local_cells : ((0 : Nat) < 4 ∨ (0 : Nat) = 4) ∧ ((4 : Nat) < 4 ∨ (4 : Nat) = 4) ∧
    ((1 : Nat) < 4 ∧ ¬ ((5 : Nat) = 6 ∧ ((1 : Nat) = 1 ∨ (1 : Nat) = 3))) := by decide

/-- `OneFramePerTick`, `NoFrameBeforeCapture`, `HarnessKeepsRenderOutsideDraw`: a run of one whole tick that quits, and a
run whose entry point returns. -/
theorem witness_harness :
    (Harness.events [.start, .firmware (.lcdwr 6 0x3F#8), .capture, .beginTick true, .firmware (.lcdwr 0 0x06#8), .drawReturned,
      .render, .endTick true] (Harness.initial cfgLinear)).map (fun h => (h.phase, h.block.out.length)) =
      some (.terminated, 1) ∧
    (Harness.events [.start, .firmware (.lcdwr 6 0x3F#8), .entryReturned] (Harness.initial cfgLinear)).map
      (fun h => (h.phase, h.block.out)) = some (.terminated, []) ∧
    (Harness.events [.start, .capture, .beginTick true] (Harness.initial cfgLinear)).map (fun h => h.phase) =
      some (.looping .drawing) ∧
    (Harness.events [.start, .capture, .beginTick true, .drawReturned] (Harness.initial cfgLinear)).map (fun h => h.phase) =
      some (.looping .drawn) := by decide

end Sys2Proof.Tests
end

/-! PROOFS. The statements of spec/00_scope.md. -/

namespace Sys2Proof.Proofs.Scope

open Sys2Proof.Machine

/-- Settles O48: the sizes of every configuration are the spec's (`Config.sizes_eq`), the buffer's range is that of its
read and write laws (R52, R53), and the other sizes are the lengths in the types of the latches, the maps and a glyph. -/
theorem configurationHoldsTheSizes : Obligations.ConfigurationHoldsTheSizes := by
  intro s
  rw [Config.sizes_eq]
  refine ⟨bufLen_eq, npos_eq, nflag_eq, glyphH_eq, fun i v => ⟨?inRange, ?outOfRange⟩, ?latches, ?mapRows, ?mapEntries,
    ?glyphRows⟩
  case inRange => exact Memory.read_write_same s.lcdm i v
  case outOfRange => exact fun h => Memory.read_out_of_range (s.lcdm.write i v) i (Nat.not_lt.mpr h)
  case latches => exact s.mask.length_toList
  case mapRows => exact s.cfg.segmap.length_toList
  case mapEntries => exact fun row _ => row.length_toList
  case glyphRows => exact fun m => (glyph m).length_toList

end Sys2Proof.Proofs.Scope

/-! PROOFS. The statements of spec/10_state.md. -/

namespace Sys2Proof.Proofs.State

open Sys2Proof.Machine Sys2Proof.Claims

/-! ## Reset -/

/-- Byte `i` of the buffer after reset is byte `i` of `LCDM_RESET` (R40). -/
theorem read_resetWith_lcdm (cfg : Config) (i : Fin bufLen) :
    (State.resetWith cfg).lcdm.read i.val = cfg.lcdmReset[i] := by
  have hget := Memory.get_ofBytes cfg.lcdmReset.toList 0 i.val
  rw [Nat.zero_add] at hget
  rw [resetWith_lcdm, Memory.read, if_pos i.isLt, hget]
  simp

theorem blankFrame_get (r : Fin frameH) (c : Fin frameW) : blankFrame[r][c] = space := by
  simp [blankFrame]

/-- Settles O1: the buffer by `read_resetWith_lcdm`, the other objects by the fields of the state after reset; the
default `LCDM_RESET` is all zeros. -/
theorem resetGivesEveryStateItsValue : Obligations.ResetGivesEveryStateItsValue := by
  refine ⟨fun s => ?event, fun i => ?default⟩
  case event =>
    rw [resetEvent_eq]
    refine ⟨read_resetWith_lcdm s.cfg, fun p => ?_, resetWith_ind _, blankFrame_get, resetWith_out _, resetWith_cfg _⟩
    simp
  case default =>
    have hread : State.reset.lcdm.read i.val = Config.lcdmResetDefault[i] := read_resetWith_lcdm Config.configured i
    simp [hread, Config.lcdmResetDefault]

/-! ## One step, by the oldest word -/

theorem step_idle (s : State) (h : s.pending = []) : step s = .next s := by
  rw [step, fetch_nil s h]

theorem step_of_instr (s : State) (w : Cmd) (ws : List Cmd) (i : Instr) (hp : s.pending = w :: ws)
    (hd : decode w = .instr i) : step s = .next (after i { s with pending := ws }) := by
  simp only [step, fetch_cons s w ws hp, hd, exec_eq_after]

theorem step_of_rejected (s : State) (w : Cmd) (ws : List Cmd) (r : Reject) (hp : s.pending = w :: ws)
    (hd : decode w = .rejected r) : step s = .next { s with pending := ws, resp := 0x00#8 } := by
  simp only [step, fetch_cons s w ws hp, hd, absorbReserved, respond]

/-! ## The output trace -/

/-- The event a RENDER emits: the frame of a fresh decode of the buffer (R150, R164). -/
def frameEvent (s : State) : List Byte :=
  serialise (frameOf (decodeMasks s.cfg.segmap s.lcdm) (decodeInd s.cfg.indmap s.lcdm))

/-- The events a command appends to `OUT`. -/
def instrEvents (s : State) : Instr → List (List Byte)
  | .render => [frameEvent s]
  | _ => []

/-- The events one step appends to `OUT`. -/
def stepEvents (s : State) : List (List Byte) :=
  match s.pending with
  | [] => []
  | w :: _ =>
    match decode w with
    | .instr i => instrEvents s i
    | .rejected _ => []

theorem stepEvents_idle (s : State) (h : s.pending = []) : stepEvents s = [] := by
  simp only [stepEvents, h]

theorem stepEvents_of_instr (s : State) (w : Cmd) (ws : List Cmd) (i : Instr) (hp : s.pending = w :: ws)
    (hd : decode w = .instr i) : stepEvents s = instrEvents s i := by
  simp only [stepEvents, hp, hd]

theorem stepEvents_of_rejected (s : State) (w : Cmd) (ws : List Cmd) (r : Reject) (hp : s.pending = w :: ws)
    (hd : decode w = .rejected r) : stepEvents s = [] := by
  simp only [stepEvents, hp, hd]

theorem instrEvents_of_ne_render (s : State) (i : Instr) (h : i ≠ .render) : instrEvents s i = [] := by
  cases i with
  | render => exact absurd rfl h
  | _ => rfl

/-- A step whose oldest word is no RENDER, and a step of the idle block, emit nothing (R37). -/
theorem stepEvents_of_not_render (s : State)
    (h : ∀ (w : Cmd) (ws : List Cmd), s.pending = w :: ws → decode w ≠ .instr .render) : stepEvents s = [] := by
  cases hp : s.pending with
  | nil => exact stepEvents_idle s hp
  | cons w ws =>
    cases hd : decode w with
    | rejected r => exact stepEvents_of_rejected s w ws r hp hd
    | instr i =>
      have hi : i ≠ .render := fun hr => h w ws hp (hr ▸ hd)
      rw [stepEvents_of_instr s w ws i hp hd, instrEvents_of_ne_render s i hi]

/-- A command reads nothing of `OUT`: under another trace it appends the same events and leaves the same rest (R37). -/
theorem after_withOut (i : Instr) (s : State) (o : List (List Byte)) :
    after i (withOut o s) = withOut (o ++ instrEvents s i) (after i s) := by
  cases i with
  | render => rfl
  | _ => simp only [instrEvents, List.append_nil]; rfl

/-- A step reads nothing of `OUT`. -/
theorem step_withOut (s t : State) (h : step s = .next t) (o : List (List Byte)) :
    step (withOut o s) = .next (withOut (o ++ stepEvents s) t) := by
  rcases step_cases s t h with ⟨hp, rfl⟩ | ⟨w, ws, i, hp, hd, rfl⟩ | ⟨w, ws, r, hp, hd, rfl⟩
  · rw [step_idle (withOut o t) hp, stepEvents_idle t hp, List.append_nil]
  · rw [step_of_instr (withOut o s) w ws i hp hd, stepEvents_of_instr s w ws i hp hd]
    exact congrArg _ (after_withOut i { s with pending := ws } o)
  · rw [step_of_rejected (withOut o s) w ws r hp hd, stepEvents_of_rejected s w ws r hp hd, List.append_nil]
    rfl

/-- What a step does to `OUT`: `step_withOut` for the trace that already stands there. -/
theorem step_out (s t : State) (h : step s = .next t) : t.out = s.out ++ stepEvents s := by
  have hsame : step s = .next (withOut (s.out ++ stepEvents s) t) := step_withOut s t h s.out
  rw [h] at hsame
  injection hsame with ht
  exact congrArg State.out ht

/-- Settles O13: a step appends `stepEvents` (`step_out`), which is one frame event of 228 bytes for a RENDER and empty
otherwise, and does the same under every other trace (`step_withOut`). -/
theorem outGrowsOnlyByRenderedFrames : Obligations.OutGrowsOnlyByRenderedFrames := by
  intro s t h
  have hout := step_out s t h
  refine ⟨fun w ws hp hd => ?render, fun hno => ?other, stepEvents s, hout, step_withOut s t h⟩
  case render =>
    rw [stepEvents_of_instr s w ws .render hp hd] at hout
    exact ⟨frameEvent s, hout, serialise_length _⟩
  case other => rw [hout, stepEvents_of_not_render s hno, List.append_nil]

end Sys2Proof.Proofs.State

/-! PROOFS. The statements of spec/20_memory.md. -/

namespace Sys2Proof.Proofs.Buffer

open Sys2Proof.Machine

/-- Settles O16: below `BUF_LEN` and at every other index by `Memory.read_write` (R52, R53), whose base is
`Memory.get_put`; at `BUF_LEN` and above both operations skip the buffer. -/
theorem byteReadsAndWrites : Obligations.ByteReadsAndWrites := by
  intro m i j v
  refine ⟨?readBack, ?otherIndex, fun hi => ?outOfRange⟩
  case readBack => exact Memory.read_write_same m i v
  case otherIndex => exact Memory.read_write_other m i j v
  case outOfRange =>
    have hout : ¬ i < bufLen := Nat.not_lt.mpr hi
    exact ⟨Memory.read_out_of_range m i hout, Memory.write_absorbed m i v hout⟩

end Sys2Proof.Proofs.Buffer

/-! PROOFS. The statements of spec/30_encoding.md. -/

namespace Sys2Proof.Proofs.Encoding

open Sys2Proof.Claims

/-! ## The fields as numbers, and what a format's mask keeps of them -/

/-- The index field by division (R72). -/
theorem cmdIdx_eq (w : Cmd) : cmdIdx w = w.toNat / 256 % 16 := by
  simp only [cmdIdx, BitVec.extractLsb'_toNat, Nat.shiftRight_eq_div_pow]

/-- The data field by division (R72). -/
theorem cmdData_eq (w : Cmd) : cmdData w = BitVec.ofNat 8 (w.toNat % 256) := by
  apply BitVec.eq_of_toNat_eq
  simp [cmdData]

/-- A packed word masked by a packed word is masked field by field. -/
theorem packCmd_and (op op' : BitVec 4) (idx idx' : Nat) (data data' : Byte) :
    packCmd op idx data &&& packCmd op' idx' data' = packCmd (op &&& op') (idx &&& idx') (data &&& data') := by
  unfold packCmd
  rw [BitVec.ofNat_and, ← BitVec.and_append]
  exact BitVec.and_append (w := 4) (v := 12)

theorem usedBits_z : usedBits .z = packCmd 0xF#4 0 0x00#8 := rfl
theorem usedBits_x : usedBits .x = packCmd 0xF#4 15 0x00#8 := rfl

/-- Format W uses every bit. -/
theorem and_usedBits_w (w : Cmd) : w &&& usedBits .w = packCmd (cmdOp w) (cmdIdx w) (cmdData w) := by
  rw [pack_fields]
  exact BitVec.and_allOnes

/-- Format X keeps the operation code and the index. -/
theorem and_usedBits_x (w : Cmd) : w &&& usedBits .x = packCmd (cmdOp w) (cmdIdx w) 0x00#8 := by
  have hop : cmdOp w &&& 0xF#4 = cmdOp w := BitVec.and_allOnes
  have hidx : cmdIdx w &&& 15 = cmdIdx w :=
    (Nat.and_two_pow_sub_one_eq_mod (cmdIdx w) 4).trans (Nat.mod_eq_of_lt (Nat.lt_succ_of_le (cmdIdx_le w)))
  conv_lhs => rw [← pack_fields w]
  rw [usedBits_x, packCmd_and, hop, hidx, BitVec.and_zero]

/-- Format Z keeps the operation code alone. -/
theorem and_usedBits_z (w : Cmd) : w &&& usedBits .z = packCmd (cmdOp w) 0 0x00#8 := by
  have hop : cmdOp w &&& 0xF#4 = cmdOp w := BitVec.and_allOnes
  conv_lhs => rw [← pack_fields w]
  rw [usedBits_z, packCmd_and, hop, Nat.and_zero, BitVec.and_zero]

/-- Every format uses the operation code. -/
theorem cmdOp_and_usedBits (w : Cmd) (f : Format) : cmdOp (w &&& usedBits f) = cmdOp w := by
  cases f with
  | w => rw [and_usedBits_w, cmdOp_pack]
  | x => rw [and_usedBits_x, cmdOp_pack]
  | z => rw [and_usedBits_z, cmdOp_pack]

/-! ## The decoder by rows -/

/-- The command of `i`'s row with the operands that stand in the word. -/
def readOperands (w : Cmd) : Instr → Instr
  | .lcdwr _ _ => .lcdwr (cmdIdx w) (cmdData w)
  | .lcdrd _ => .lcdrd (cmdIdx w)
  | .maskrd _ => .maskrd (cmdIdx w)
  | .nop => .nop
  | .indrd => .indrd
  | .decode => .decode
  | .render => .render

/-- The operation code selects the row and the fields give its operands (R72, R74). -/
theorem decode_of_op (w : Cmd) (i : Instr) (h : cmdOp w = i.op) : decode w = .instr (readOperands w i) := by
  unfold decode
  rw [h]
  cases i <;> rfl

/-- A decoded command's row is the one of the word's operation code: each row of the decoder answers its own command. -/
theorem cmdOp_of_decode (w : Cmd) (i : Instr) (h : decode w = .instr i) : cmdOp w = i.op := by
  apply BitVec.eq_of_toNat_eq
  unfold decode at h
  split at h <;> cases h <;> assumption

/-- A word decodes to exactly the command of its row with its operands. -/
theorem decode_eq_instr_iff (w : Cmd) (i : Instr) :
    decode w = .instr i ↔ cmdOp w = i.op ∧ readOperands w i = i := by
  constructor
  case mp =>
    intro h
    have hop : cmdOp w = i.op := cmdOp_of_decode w i h
    rw [decode_of_op w i hop] at h
    exact ⟨hop, Decoded.instr.inj h⟩
  case mpr =>
    rintro ⟨hop, hread⟩
    rw [decode_of_op w i hop, hread]

/-! ## Ignored fields -/

/-- The operands of a row lie in the bits its format uses. -/
theorem readOperands_and_usedBits (w : Cmd) (i : Instr) :
    readOperands (w &&& usedBits i.format) i = readOperands w i := by
  have hidx : cmdIdx (w &&& usedBits .x) = cmdIdx w := by rw [and_usedBits_x, cmdIdx_pack _ _ _ (cmdIdx_le w)]
  cases i with
  | lcdwr idx data => rw [Instr.format, and_usedBits_w, pack_fields]
  | lcdrd idx => exact congrArg Instr.lcdrd hidx
  | maskrd idx => exact congrArg Instr.maskrd hidx
  | nop | indrd | decode | render => rfl

/-- Whether a word decodes to `i` depends on the bits the format of `i` uses alone (R73). -/
theorem decode_and_usedBits_iff (w : Cmd) (i : Instr) :
    decode (w &&& usedBits i.format) = .instr i ↔ decode w = .instr i := by
  simp only [decode_eq_instr_iff, cmdOp_and_usedBits, readOperands_and_usedBits]

/-- The canonical word of a row, with the operands of `w`, is `w` with the ignored fields zero. -/
theorem encode_readOperands (w : Cmd) (i : Instr) (h : cmdOp w = i.op) :
    encode (readOperands w i) = w &&& usedBits i.format := by
  cases i with
  | lcdwr idx data => rw [Instr.format, and_usedBits_w, h]; rfl
  | lcdrd idx | maskrd idx => rw [Instr.format, and_usedBits_x, h]; rfl
  | nop | indrd | decode | render => rw [Instr.format, and_usedBits_z, h]; rfl

/-! ## The statements -/

/-- A word that meets the match of a row under the table's mask carries the row's operation code. -/
theorem cmdOp_of_match (w : Cmd) (op : BitVec 4) (h : w &&& 0xF000#16 = packCmd op 0 0x00#8) : cmdOp w = op := by
  have hmask : cmdOp (w &&& 0xF000#16) = cmdOp w := cmdOp_and_usedBits w .z
  rw [← hmask, h, cmdOp_pack]

/-- Settles O5: under the mask a word shows its operation code alone (`cmdOp_of_match`), which selects the row
(`decode_of_op`); the operands are the fields written as divisions. -/
theorem decoderFollowsOpcodeTable : Obligations.DecoderFollowsOpcodeTable := by
  intro w
  have row (i : Instr) (h : w &&& 0xF000#16 = packCmd i.op 0 0x00#8) : decode w = .instr (readOperands w i) :=
    decode_of_op w i (cmdOp_of_match w i.op h)
  rw [← cmdIdx_eq, ← cmdData_eq]
  exact ⟨row .nop, row (.lcdwr 0 0x00#8), row (.lcdrd 0), row (.maskrd 0), row .indrd, row .decode, row .render⟩

/-- Settles O6: the decoder sees the used bits alone (`decode_and_usedBits_iff`), and the canonical word of the command
read from `w` is `w` with the other bits zero (`encode_readOperands`). -/
theorem ignoredFieldsDoNotMatter : Obligations.IgnoredFieldsDoNotMatter := by
  intro w v i hw
  refine ⟨fun hv => ?ignored, ?canonical⟩
  case ignored => rwa [← decode_and_usedBits_iff v, hv, decode_and_usedBits_iff]
  case canonical =>
    obtain ⟨hop, hread⟩ := (decode_eq_instr_iff w i).mp hw
    rw [← encode_readOperands w i hop, hread]

end Sys2Proof.Proofs.Encoding

/-! PROOFS. The statements of spec/40_buffer_access.md. -/

namespace Sys2Proof.Proofs.BufferAccess

open Sys2Proof.Machine Sys2Proof.Proofs.Encoding

/-! ## Words written with OR and shift -/

/-- The field layout of R70: the three fields shifted to their places and OR'd. -/
theorem packCmd_eq_or (op : BitVec 4) (idx : Nat) (data : Byte) (h : idx ≤ 15) :
    packCmd op idx data = op.setWidth 16 <<< 12 ||| BitVec.ofNat 16 idx <<< 8 ||| data.setWidth 16 := by
  calc packCmd op idx data
    _ = (op ++ (BitVec.ofNat 4 idx ++ data)).setWidth 16 := (BitVec.setWidth_eq _).symm
    _ = op.setWidth 16 <<< 12 ||| ((BitVec.ofNat 4 idx).setWidth 16 <<< 8 ||| data.setWidth 16) := by
      rw [BitVec.setWidth_append_eq_shiftLeft_setWidth_or, BitVec.setWidth_append_eq_shiftLeft_setWidth_or]
    _ = op.setWidth 16 <<< 12 ||| BitVec.ofNat 16 idx <<< 8 ||| data.setWidth 16 := by
      rw [BitVec.setWidth_ofNat_of_le_of_lt (by decide) (Nat.lt_succ_of_le h), BitVec.or_assoc]

/-- A word OR'd together from a row's operation code and two fields decodes to that row with those fields (R72, R74). -/
theorem decode_or_word (i : Instr) (idx : Nat) (data : Byte) (h : idx ≤ 15) :
    decode (i.op.setWidth 16 <<< 12 ||| BitVec.ofNat 16 idx <<< 8 ||| data.setWidth 16) =
      .instr (readOperands (packCmd i.op idx data) i) := by
  rw [← packCmd_eq_or i.op idx data h]
  exact decode_of_op _ i (cmdOp_pack i.op idx data)

/-- A word of LCDWR: `0x1000 | idx << 8 | data` (R101). -/
theorem decode_lcdwr_word (idx : Nat) (data : Byte) (h : idx ≤ 15) :
    decode (0x1000#16 ||| BitVec.ofNat 16 idx <<< 8 ||| data.setWidth 16) = .instr (.lcdwr idx data) := by
  have hrow := decode_or_word (.lcdwr idx data) idx data h
  rwa [readOperands, cmdIdx_pack _ _ _ h, cmdData_pack] at hrow

/-- A word of LCDRD: `0x2000 | idx << 8`, the low byte ignored (R102, R73). -/
theorem decode_lcdrd_word (idx : Nat) (low : Byte) (h : idx ≤ 15) :
    decode (0x2000#16 ||| BitVec.ofNat 16 idx <<< 8 ||| low.setWidth 16) = .instr (.lcdrd idx) := by
  have hrow := decode_or_word (.lcdrd idx) idx low h
  rwa [readOperands, cmdIdx_pack _ _ _ h] at hrow

/-- A word up to `0x0FFF` carries the operation code of NOP (R100). -/
theorem cmdOp_eq_zero_of_le (w : Cmd) (h : w.toNat ≤ 0x0FFF) : cmdOp w = 0x0#4 := by
  apply BitVec.eq_of_toNat_eq
  rw [cmdOp_toNat]
  exact Nat.div_eq_of_lt (Nat.lt_succ_of_le h)

/-! ## The statements -/

/-- Settles O18: the word by `decode_lcdwr_word`; the next state is `after` (`exec_eq_after`), its buffer is one
`Memory.write`, whose laws give the three memory clauses, and `storeByte` leaves the other fields alone. -/
theorem lcdwrStoresOneByte : Obligations.LcdwrStoresOneByte := by
  intro s idx data hidx
  refine ⟨decode_lcdwr_word idx data hidx, after (.lcdwr idx data) s, exec_eq_after _ s, fun hlow => ?stored,
    fun a ha => ?otherIndex, fun hhigh => ?absorbed, rfl, rfl, rfl, rfl, rfl, rfl, rfl⟩
  case stored => exact Memory.read_write_same s.lcdm (directIndex idx) data (Nat.lt_succ_of_le hlow)
  case otherIndex => exact Memory.read_write_other s.lcdm (directIndex idx) a data ha
  case absorbed => exact Memory.write_absorbed s.lcdm (directIndex idx) data (Nat.not_lt.mpr hhigh)

/-- LCDRD responds with the byte the buffer reads at its index and changes nothing else (R102, R105). -/
theorem exec_lcdrd (idx : Nat) (s : State) :
    exec (.lcdrd idx) s = .next { s with resp := s.lcdm.read (directIndex idx) } := exec_eq_after (.lcdrd idx) s

/-- Settles O19: the words by `decode_lcdrd_word`, the effect by `exec_lcdrd`; past `BUF_LEN` the buffer reads 0x00, and
after reset it reads `LCDM_RESET` (`read_resetWith_lcdm`). -/
theorem lcdrdReadsOneByte : Obligations.LcdrdReadsOneByte := by
  intro s idx hidx
  refine ⟨fun low => decode_lcdrd_word idx low hidx, fun _ => exec_lcdrd idx s, fun hhigh => ?outOfRange,
    fun cfg h => ?afterReset⟩
  case outOfRange =>
    have hread : s.lcdm.read (directIndex idx) = 0x00#8 :=
      Memory.read_out_of_range s.lcdm (directIndex idx) (Nat.not_lt.mpr hhigh)
    rw [exec_lcdrd, hread]
  case afterReset =>
    have hread : (State.resetWith cfg).lcdm.read (directIndex idx) = cfg.lcdmReset[idx] :=
      State.read_resetWith_lcdm cfg ⟨idx, h⟩
    rw [exec_lcdrd, hread]

/-- Settles O17: the operation code of the words selects NOP's row (`decode_of_op`), the canonical word is all zero, and
the next state is `after` (`exec_eq_after`). -/
theorem nopOnlyResponds : Obligations.NopOnlyResponds :=
  ⟨fun w hw => decode_of_op w .nop (cmdOp_eq_zero_of_le w hw), rfl, exec_eq_after .nop⟩

end Sys2Proof.Proofs.BufferAccess

/-! PROOFS. The statements of spec/41_decode.md. -/

namespace Sys2Proof.Proofs.Decode

open Sys2Proof.Machine Sys2Proof.Claims Sys2Proof.Proofs.Encoding Sys2Proof.Proofs.BufferAccess

/-! ## Flags as bits -/

/-- A byte ANDed with one bit is not zero exactly when the byte has the bit. -/
theorem and_twoPow_bne_zero (v : Byte) (i : Nat) (h : i < 8) :
    (v &&& BitVec.twoPow 8 i != 0x00#8) = v.getLsbD i := by
  have hbit : BitVec.twoPow 8 i ≠ 0x00#8 := fun h0 => by simpa [h] using congrArg (BitVec.getLsbD · i) h0
  rw [BitVec.and_twoPow]
  cases v.getLsbD i <;> simp [hbit]

/-- Segment flag `f` has the bit `1 << f` (R25). -/
theorem segFlag_bit_eq_twoPow (f : SegFlag) : f.bit = BitVec.twoPow 8 f.number.val := by cases f <;> rfl

/-- Indicator `k` has the bit `1 << k` (R28). -/
theorem indicator_bit_eq_twoPow (k : Indicator) : k.bit = BitVec.twoPow 8 k.number.val := by cases k <;> rfl

theorem segLit_eq_getLsbD (v : Byte) (f : SegFlag) : segLit v f = v.getLsbD f.number.val := by
  rw [segLit, segFlag_bit_eq_twoPow, and_twoPow_bne_zero v _ f.number.isLt]

theorem indLit_eq_getLsbD (v : Byte) (k : Indicator) : indLit v k = v.getLsbD k.number.val := by
  rw [indLit, indicator_bit_eq_twoPow, and_twoPow_bne_zero v _ (Nat.lt_trans k.number.isLt (by decide))]

/-- Every indicator number is the number of an indicator. -/
theorem indicator_number_surj (i : Fin nind) : ∃ k : Indicator, k.number = i := by
  match i with
  | 0 => exact ⟨.am, rfl⟩
  | 1 => exact ⟨.pm, rfl⟩
  | 2 => exact ⟨.sign, rfl⟩
  | 3 => exact ⟨.colon, rfl⟩
  | 4 => exact ⟨.batdiv, rfl⟩

/-- Bit `f` of `DecodePos(p)` is the test of the entry (p, f) (R121). -/
theorem getLsbD_decodePos (sm : Segmap) (m : Memory) (p : Fin npos) (f : Fin nflag) :
    (decodePos sm m p).getLsbD f.val = test m (sm[p][f]) := by
  obtain ⟨flag, rfl⟩ := SegFlag.number_surj f
  rw [← segLit_eq_getLsbD, segLit_decodePos]

/-- Bit `k` of `DecodeInd()` is the test of entry `k` (R124). -/
theorem getLsbD_decodeInd (im : Indmap) (m : Memory) (k : Fin nind) :
    (decodeInd im m).getLsbD k.val = test m (im[k]) := by
  obtain ⟨indicator, rfl⟩ := indicator_number_surj k
  rw [← indLit_eq_getLsbD, indLit_decodeInd]

/-- Bits 5 to 7 of `DecodeInd()` are 0 (R124). -/
theorem getLsbD_decodeInd_top (im : Indmap) (m : Memory) (i : Nat) (h : (0xE0#8).getLsbD i = true) :
    (decodeInd im m).getLsbD i = false := by
  have hbit := congrArg (BitVec.getLsbD · i) (decodeInd_top im m)
  simpa [BitVec.getLsbD_and, h] using hbit

/-- Latches that hold the decode of a buffer show its flags bit by bit (R125). -/
theorem latchesDecode_of_decoded (s t : State) (hmask : t.mask = decodeMasks s.cfg.segmap s.lcdm)
    (hind : t.ind = decodeInd s.cfg.indmap s.lcdm) : LatchesDecode s t := by
  unfold LatchesDecode Lit
  rw [hmask, hind]
  refine ⟨fun p f => ?segment, fun k => ?indicator, ?top⟩
  case segment =>
    have hget : (decodeMasks s.cfg.segmap s.lcdm)[p] = decodePos s.cfg.segmap s.lcdm p :=
      decodeMasks_get _ _ p.val p.isLt
    rw [hget, getLsbD_decodePos, test_eq_true_iff]
  case indicator => rw [getLsbD_decodeInd, test_eq_true_iff]
  case top => exact ⟨getLsbD_decodeInd_top _ _ 5 rfl, getLsbD_decodeInd_top _ _ 6 rfl, getLsbD_decodeInd_top _ _ 7 rfl⟩

/-! ## Words and operands -/

/-- The top digit of a word selects its row (R74). -/
theorem decode_of_toNat_div (w : Cmd) (i : Instr) (h : w.toNat / 4096 = i.op.toNat) :
    decode w = .instr (readOperands w i) :=
  decode_of_op w i (BitVec.eq_of_toNat_eq ((cmdOp_toNat w).trans h))

/-- A word of MASKRD: `0x3000 | idx << 8`, the low byte ignored (R129, R73). -/
theorem decode_maskrd_word (idx : Nat) (low : Byte) (h : idx ≤ 15) :
    decode (0x3000#16 ||| BitVec.ofNat 16 idx <<< 8 ||| low.setWidth 16) = .instr (.maskrd idx) := by
  have hrow := decode_or_word (.maskrd idx) idx low h
  rwa [readOperands, cmdIdx_pack _ _ _ h] at hrow

theorem maskAt_of_lt (masks : Vector Byte npos) (p : Nat) (h : p < npos) : maskAt masks p = masks[p] := dif_pos h

theorem maskAt_of_ge (masks : Vector Byte npos) (p : Nat) (h : npos ≤ p) : maskAt masks p = 0x00#8 :=
  dif_neg (Nat.not_lt.mpr h)

/-- Masks that are all zero read zero at every position, also where there is none. -/
theorem maskAt_replicate_zero (p : Nat) : maskAt (Vector.replicate npos 0x00#8) p = 0x00#8 := by
  rcases Nat.lt_or_ge p npos with h | h
  · rw [maskAt_of_lt _ p h, Vector.getElem_replicate]
  · exact maskAt_of_ge _ p h

/-- MASKRD responds with the latch at its position and changes nothing else (R129). -/
theorem exec_maskrd (idx : Nat) (s : State) : exec (.maskrd idx) s = .next { s with resp := maskAt s.mask idx } :=
  exec_eq_after (.maskrd idx) s

/-! ## The statements -/

/-- Settles O22: the words by `decode_of_toNat_div`; the next state is `after` (`exec_eq_after`), whose latches are
those of `decodeAll` (`latchesDecode_of_decoded`), and `decodeAll` leaves the other fields alone. -/
theorem decodeSetsEveryFlag : Obligations.DecodeSetsEveryFlag :=
  ⟨fun w hw => decode_of_toNat_div w .decode hw, rfl, fun s =>
    ⟨after .decode s, exec_eq_after .decode s, latchesDecode_of_decoded s _ rfl rfl, rfl, rfl, rfl, rfl, rfl, rfl⟩⟩

/-- Settles O23: the words by `decode_maskrd_word`, the effect by `exec_maskrd`; the response is `maskAt`, by its two
ranges and on the zero masks of reset. -/
theorem maskrdReadsTheLatch : Obligations.MaskrdReadsTheLatch := by
  intro s idx hidx
  refine ⟨fun low => decode_maskrd_word idx low hidx, fun h => ?latch, fun hhigh => ?noPosition, fun cfg => ?afterReset⟩
  case latch => rw [exec_maskrd, maskAt_of_lt _ idx h]
  case noPosition => rw [exec_maskrd, maskAt_of_ge _ idx hhigh]
  case afterReset =>
    have hread : maskAt (State.resetWith cfg).mask idx = 0x00#8 := maskAt_replicate_zero idx
    rw [exec_maskrd, hread]

/-- Settles O21: out of range by `test_out_of_range`; in range the test is its definition, with the entry's byte field
as the index (R126). -/
theorem bitTestIsAndThenNonZero : Obligations.BitTestIsAndThenNonZero :=
  fun m e => ⟨fun hout => test_out_of_range m e (Nat.not_lt.mpr hout), fun _ => rfl⟩

/-- Settles O24: the words by `decode_of_toNat_div`, the effect by `exec_eq_after`. -/
theorem indrdReadsTheLatch : Obligations.IndrdReadsTheLatch :=
  ⟨fun w hw => decode_of_toNat_div w .indrd hw, rfl, exec_eq_after .indrd⟩

end Sys2Proof.Proofs.Decode

/-! PROOFS. The statements of spec/42_render.md. -/

namespace Sys2Proof.Proofs.Render

open Sys2Proof.Machine Sys2Proof.Proofs.Decode

/-! ## The cells of a glyph -/

/-- A cell a segment owns shows its character exactly when the mask has the segment's bit (R152). -/
theorem glyph_get_owned (m : Byte) (f : SegFlag) {r c : Nat} {hr : r < glyphH} {hc : c < glyphW}
    (h : (r, c) ∈ f.cells := by decide) :
    (glyph m)[r][c] = if m.getLsbD f.number.val then f.char else space := by
  rw [glyph_get, glyphCell_owned m f r c h, segLit_eq_getLsbD]

/-- A cell that is none of the segments' cells is a space (R152). -/
theorem glyph_get_unowned (m : Byte) {r c : Nat} {hr : r < glyphH} {hc : c < glyphW}
    (h : ∀ f ∈ SegFlag.all, (r, c) ∉ f.cells := by decide) : (glyph m)[r][c] = space := by
  rw [glyph_get, glyphCell_unowned m r c fun f => h f f.mem_all]

/-- Above the bottom row the last column of a glyph belongs to no segment: the gap between digits (R152). -/
theorem glyphCell_gap (m : Byte) (r : Nat) (h : r ≠ 4) : glyphCell m r 4 = space := by
  apply glyphCell_unowned
  intro f
  cases f <;> simp [SegFlag.cells, h]

/-! ## The cells of a composed frame -/

theorem compose_getElem? (masks : Vector Byte npos) (r : Fin frameH) (c : Nat) (h : c < frameW) :
    ((compose masks)[r])[c]? = some (composeCell masks r.val c) := by
  rw [Vector.getElem?_eq_getElem h]
  exact congrArg some (compose_get masks r.val c r.isLt h)

/-- The columns of a position lie inside the frame (R157). -/
theorem col_add_lt_frameW (p : Fin npos) (c : Nat) (h : c < glyphW) : col p + c < frameW := by
  simp only [col, leftMargin, glyphW, npos, frameW] at *
  omega

/-- No column belongs to two positions (R158). -/
theorem column_unique (p q : Fin npos) (c d : Fin glyphW)
    (h : 3 + 5 * (7 - p.val) + c.val = 3 + 5 * (7 - q.val) + d.val) : (p, c) = (q, d) := by
  have hp : p.val < 8 := p.isLt
  have hq : q.val < 8 := q.isLt
  have hc : c.val < 5 := c.isLt
  have hd : d.val < 5 := d.isLt
  have hposition : p = q := Fin.ext (by omega)
  have hcolumn : c = d := Fin.ext (by omega)
  rw [hposition, hcolumn]

/-- The margin columns of a composed frame are blank (R158). -/
theorem compose_get_margin (masks : Vector Byte npos) {r c : Nat} {hr : r < frameH} {hc : c < frameW}
    (h : c < leftMargin := by decide) : (compose masks)[r][c] = space := by
  rw [compose_get, composeCell_margin masks r c h]

/-- Above the bottom row the gap column of every position is blank (R152, R158). -/
theorem composeCell_gap (masks : Vector Byte npos) (p : Fin npos) (r : Nat) (h : r ≠ 4) :
    composeCell masks r (col p + 4) = space := by
  rw [composeCell_position masks p r 4 (by decide), glyphCell_gap _ r h]

/-- The column of the colon is the gap column of position 6 (R159). -/
theorem compose_get_colon (masks : Vector Byte npos) {r : Nat} {hr : r < frameH} {hc : 12 < frameW}
    (h : r ≠ 4 := by decide) : (compose masks)[r][12] = space := by
  rw [compose_get]
  exact composeCell_gap masks 6 r h

/-! ## The cells of an overlaid frame -/

/-- A cell of an indicator shows its character when the indicator's bit is 1 and keeps what it held when it is 0
(R160). -/
theorem overlay_get_owned (ind : Byte) (fr : Frame) (k : Indicator) {r c : Nat} {ch : Byte} {hr : r < frameH}
    {hc : c < frameW} (h : (r, c, ch) ∈ k.glyph := by decide) :
    (overlay ind fr)[r][c] = if ind.getLsbD k.number.val then ch else fr[r][c] := by
  rw [overlay_get, overlayCell_owned ind k r c _ ch h, indLit_eq_getLsbD]

/-- The eight cells of the indicators (R159). -/
def indicatorCells : List (Nat × Nat) := [(0, 0), (0, 1), (1, 0), (1, 1), (2, 0), (1, 12), (3, 12), (4, 0)]

theorem mem_indicatorCells (k : Indicator) (r c : Nat) (ch : Byte) (h : (r, c, ch) ∈ k.glyph) :
    (r, c) ∈ indicatorCells := by
  have hall : ∀ k ∈ Indicator.all, ∀ t ∈ k.glyph, (t.1, t.2.1) ∈ indicatorCells := by decide
  exact hall k k.mem_all _ h

/-- A cell of no indicator is as it was before the overlay (R160). -/
theorem overlay_get_unowned (ind : Byte) (fr : Frame) {r c : Nat} {hr : r < frameH} {hc : c < frameW}
    (h : (r, c) ∉ indicatorCells) : (overlay ind fr)[r][c] = fr[r][c] := by
  rw [overlay_get, overlayCell_unowned ind r c _ fun k ch hk => h (mem_indicatorCells k r c ch hk)]

/-- No indicator has a cell in margin column 2 (R159). -/
theorem column_two_not_mem_indicatorCells (r : Nat) : (r, 2) ∉ indicatorCells := by
  simp [indicatorCells]

/-! ## The bytes of a serialised frame -/

/-- Row `r` of a list of serialised rows begins at byte `45 * r` (R163). -/
theorem flatMap_rows_getElem? (rows : List (Vector Byte frameW)) (r k : Nat) (hr : r < rows.length) (hk : k < 45) :
    (rows.flatMap serialiseRow)[45 * r + k]? = (serialiseRow rows[r])[k]? := by
  induction rows generalizing r with
  | nil => exact absurd hr (Nat.not_lt_zero r)
  | cons row rows ih =>
    rw [List.flatMap_cons]
    cases r with
    | zero =>
      rw [Nat.mul_zero, Nat.zero_add, List.getElem?_append_left (by rw [serialiseRow_length]; exact hk),
        List.getElem_cons_zero]
    | succ r =>
      have hoffset : 45 * (r + 1) + k - (serialiseRow row).length = 45 * r + k := by rw [serialiseRow_length]; omega
      rw [List.getElem?_append_right (by rw [serialiseRow_length]; omega), hoffset, List.getElem_cons_succ]
      exact ih r (Nat.lt_of_succ_lt_succ hr)

/-- Row `r` of a frame and its `ROW_EOL` stand at bytes `3 + 45 * r` to `3 + 45 * r + 44` (R163). -/
theorem serialise_getElem?_row (fr : Frame) (r : Fin frameH) (k : Nat) (hk : k < 45) :
    (serialise fr)[3 + 45 * r.val + k]? = (serialiseRow fr[r])[k]? := by
  have hlen : framePrefix.length = 3 := rfl
  have hoffset : 3 + 45 * r.val + k - framePrefix.length = 45 * r.val + k := by omega
  rw [serialise, List.getElem?_append_right (by omega), hoffset,
    flatMap_rows_getElem? fr.toList r.val k (by rw [fr.length_toList]; exact r.isLt) hk]
  rfl

theorem serialiseRow_getElem?_cell (row : Vector Byte frameW) (c : Fin frameW) :
    (serialiseRow row)[c.val]? = some row[c] := by
  rw [serialiseRow, List.getElem?_append_left (by rw [row.length_toList]; exact c.isLt)]
  simp

theorem serialiseRow_getElem?_eol (row : Vector Byte frameW) (k : Nat) :
    (serialiseRow row)[43 + k]? = rowEol[k]? := by
  rw [serialiseRow, List.getElem?_append_right (by rw [row.length_toList]; exact Nat.le_add_right 43 k),
    row.length_toList]
  exact congrArg (rowEol[·]?) (Nat.add_sub_cancel_left 43 k)

/-! ## The statements -/

/-- Settles O31: the words by `decode_of_toNat_div`; the next state is `after` (`exec_eq_after`), whose latches are
those of `decodeAll` (`latchesDecode_of_decoded`), whose frame is drawn from them and then emitted. -/
theorem renderEmitsTheDecodedFrame : Obligations.RenderEmitsTheDecodedFrame :=
  ⟨fun w hw => decode_of_toNat_div w .render hw, rfl, fun s =>
    ⟨after .render s, exec_eq_after .render s, latchesDecode_of_decoded s _ rfl rfl, rfl, rfl, rfl, rfl, rfl, rfl⟩⟩

/-- Settles O34: a position's columns by `composeCell_position`, the margin by `composeCell_margin`; every other column
belongs to a position (`column_cases`) and to no other (`column_unique`). -/
theorem composePlacesEachGlyph : Obligations.ComposePlacesEachGlyph := by
  intro masks r
  refine ⟨fun p c => ?glyphColumns, fun c => ?margin, fun c => ?partition, fun p => rfl⟩
  case glyphColumns =>
    have hcell := composeCell_position masks p r.val c.val c.isLt
    have hglyph : (glyph masks[p])[r][c] = glyphCell masks[p] r.val c.val := glyph_get _ _ _ r.isLt c.isLt
    rw [hglyph, ← hcell]
    exact compose_getElem? masks r (col p + c.val) (col_add_lt_frameW p c.val c.isLt)
  case margin =>
    rw [compose_getElem? masks r c.val (Nat.lt_trans c.isLt (by decide)), composeCell_margin masks r.val c.val c.isLt]
    rfl
  case partition =>
    rcases column_cases c.val c.isLt with hmargin | ⟨p, k, hk, hcol⟩
    · exact .inl hmargin
    · exact .inr ⟨(p, ⟨k, hk⟩), hcol, fun ⟨q, d⟩ hqd => column_unique q p d ⟨k, hk⟩ (hqd.symm.trans hcol)⟩

/-- Settles O35: the indicators' cells by `overlay_get_owned`, all others by `overlay_get_unowned`; in a composed frame
the indicators' cells are margin (`compose_get_margin`) or gap of position 6 (`compose_get_colon`). -/
theorem overlayWritesLitIndicators : Obligations.OverlayWritesLitIndicators := by
  intro ind fr
  refine ⟨overlay_get_owned ind fr .am, overlay_get_owned ind fr .am, overlay_get_owned ind fr .pm,
    overlay_get_owned ind fr .pm, overlay_get_owned ind fr .sign, overlay_get_owned ind fr .colon,
    overlay_get_owned ind fr .colon, overlay_get_owned ind fr .batdiv, fun r c h => ?otherCell, fun masks => ?composed⟩
  case otherCell => exact overlay_get_unowned ind fr h
  case composed =>
    refine ⟨compose_get_margin masks, compose_get_margin masks, compose_get_margin masks, compose_get_margin masks,
      compose_get_margin masks, compose_get_colon masks, compose_get_colon masks, compose_get_margin masks,
      fun r => ⟨compose_get_margin masks, ?overlaid⟩⟩
    case overlaid =>
      exact (overlay_get_unowned ind (compose masks) (column_two_not_mem_indicatorCells r.val)).trans
        (compose_get_margin masks)

/-- Settles O36: the length by `serialise_length`, the first three bytes are `FRAME_PREFIX`, and each row's
cells and line ending stand at the row's place (`serialise_getElem?_row`). -/
theorem serialisedFrameLayout : Obligations.SerialisedFrameLayout := by
  intro fr
  refine ⟨serialise_length fr, rfl, rfl, rfl, fun r c => ?cell, fun r => ⟨?carriageReturn, ?lineFeed⟩⟩
  case cell =>
    rw [serialise_getElem?_row fr r c.val (Nat.lt_trans c.isLt (by decide)), serialiseRow_getElem?_cell]
  case carriageReturn =>
    rw [serialise_getElem?_row fr r 43 (by decide)]
    exact serialiseRow_getElem?_eol fr[r] 0
  case lineFeed =>
    rw [serialise_getElem?_row fr r 44 (by decide)]
    exact serialiseRow_getElem?_eol fr[r] 1

/-- Settles O32: each cell belongs to one segment (`glyph_get_owned`) or to none (`glyph_get_unowned`); a line for each
row of the glyph. -/
theorem glyphCellsAreTheSegments : Obligations.GlyphCellsAreTheSegments := fun m =>
  ⟨glyph_get_unowned m, glyph_get_owned m .segA, glyph_get_owned m .segA, glyph_get_unowned m, glyph_get_unowned m,
    glyph_get_owned m .segF, glyph_get_unowned m, glyph_get_unowned m, glyph_get_owned m .segB, glyph_get_unowned m,
    glyph_get_unowned m, glyph_get_owned m .segG, glyph_get_owned m .segG, glyph_get_unowned m, glyph_get_unowned m,
    glyph_get_owned m .segE, glyph_get_unowned m, glyph_get_unowned m, glyph_get_owned m .segC, glyph_get_unowned m,
    glyph_get_unowned m, glyph_get_owned m .segD, glyph_get_owned m .segD, glyph_get_unowned m, glyph_get_owned m .segDP⟩

end Sys2Proof.Proofs.Render

/-! PROOFS. The statements of spec/60_exceptions.md. -/

namespace Sys2Proof.Proofs.Exceptions

open Sys2Proof.Machine Sys2Proof.Proofs.State

/-- A step never ends in a fault or a refusal: idle, a command and a reserved word each complete (R200, R202). -/
theorem exists_step_next (s : State) : ∃ t : State, step s = .next t := by
  cases hp : s.pending with
  | nil => exact ⟨s, step_idle s hp⟩
  | cons w ws =>
    cases hd : decode w with
    | instr i => exact ⟨_, step_of_instr s w ws i hp hd⟩
    | rejected r => exact ⟨_, step_of_rejected s w ws r hp hd⟩

/-- Settles O11: a next state exists by `exists_step_next`; `step` is a function, so there is no other. -/
theorem everyStepCompletes : Obligations.EveryStepCompletes := by
  intro s
  obtain ⟨t, ht⟩ := exists_step_next s
  refine ⟨t, ht, fun u hu => ?unique⟩
  case unique => exact Host.Outcome.next.inj (hu.symm.trans ht)

end Sys2Proof.Proofs.Exceptions

/-! PROOFS. The statements of spec/70_reset_and_hazards.md. -/

namespace Sys2Proof.Proofs.ResetAndHazards

open Sys2Proof.Machine

/-- What a step can do (`step_cases`) is idle, run a command or absorb a reserved word; a command writes no part of the
configuration (`after_cfg`), and the other two do not reach it (R231). -/
theorem step_cfg (s t : State) (h : step s = .next t) : t.cfg = s.cfg := by
  obtain ⟨-, rfl⟩ | ⟨-, ws, i, -, -, rfl⟩ | ⟨-, -, -, -, -, rfl⟩ := step_cases s t h
  case inl => rfl
  case inr.inl => exact after_cfg i { s with pending := ws }
  case inr.inr => rfl

/-- Settles O12: the reset event starts from the state's own configuration (`resetWith_cfg`), and a step keeps it
(`step_cfg`). -/
theorem resetAndStepsKeepTheConfiguration : Obligations.ResetAndStepsKeepTheConfiguration :=
  ⟨fun s => resetWith_cfg s.cfg, step_cfg⟩

end Sys2Proof.Proofs.ResetAndHazards

/-! PROOFS. The invariant of the block: spec/10_state.md section 6 and spec/42_render.md section 5. -/

namespace Sys2Proof.Proofs.Invariant

open Sys2Proof.Machine Sys2Proof.Safety Sys2Proof.Proofs.State

/-! ## The codes a frame cell can hold (R36) -/

theorem space_mem_cellCodes : space ∈ cellCodes := by decide

theorem segChar_mem_cellCodes (f : SegFlag) : f.char ∈ cellCodes := by cases f <;> decide

theorem indicatorChar_mem_cellCodes (k : Indicator) : ∀ t ∈ k.glyph, t.2.2 ∈ cellCodes := by cases k <;> decide

/-- A glyph cell is a space over which only segment characters are written. -/
theorem glyphCell_mem_cellCodes (m : Byte) (r c : Nat) : glyphCell m r c ∈ cellCodes := by
  refine List.foldlRecOn SegFlag.all _ space_mem_cellCodes fun ch hch f _ => ?_
  split
  · exact segChar_mem_cellCodes f
  · exact hch

/-- A composed cell is a space over which only glyph cells are copied. -/
theorem composeCell_mem_cellCodes (masks : Vector Byte npos) (r c : Nat) : composeCell masks r c ∈ cellCodes := by
  refine List.foldlRecOn positions _ space_mem_cellCodes fun ch hch p _ => ?_
  split
  · exact glyphCell_mem_cellCodes masks[p] r (c - col p)
  · exact hch

theorem paint_mem_cellCodes (k : Indicator) (r c : Nat) (ch : Byte) (h : ch ∈ cellCodes) :
    paint k.glyph r c ch ∈ cellCodes := by
  refine List.foldlRecOn k.glyph _ h fun x hx t ht => ?_
  split
  · exact indicatorChar_mem_cellCodes k t ht
  · exact hx

theorem overlayCell_mem_cellCodes (ind : Byte) (r c : Nat) (ch : Byte) (h : ch ∈ cellCodes) :
    overlayCell ind r c ch ∈ cellCodes := by
  refine List.foldlRecOn Indicator.all _ h fun x hx k _ => ?_
  split
  · exact paint_mem_cellCodes k r c x hx
  · exact hx

theorem frameCodes_frameOf (masks : Vector Byte npos) (ind : Byte) : FrameCodes (frameOf masks ind) := by
  intro r c
  have hcell : (frameOf masks ind)[r][c] = overlayCell ind r.val c.val (composeCell masks r.val c.val) :=
    frameOf_get masks ind r.val c.val r.isLt c.isLt
  rw [hcell]
  exact overlayCell_mem_cellCodes ind r c _ (composeCell_mem_cellCodes masks r c)

theorem frameCodes_blankFrame : FrameCodes blankFrame := by
  intro r c
  rw [blankFrame_get]
  exact space_mem_cellCodes

/-! ## The invariant through the state updates -/

/-- The invariant speaks of the buffer, the indicators, the frame and the trace alone. -/
theorem inv_congr {s t : State} (h : Inv s) (hmem : t.lcdm = s.lcdm) (hind : t.ind = s.ind)
    (hframe : t.frame = s.frame) (hout : t.out = s.out) : Inv t where
  memory := hmem ▸ h.memory
  indTop := hind ▸ h.indTop
  codes := hframe ▸ h.codes
  events := hout ▸ h.events
  last := by
    have hlast := h.last
    unfold FrameIsLastEvent at hlast ⊢
    rwa [hout, hframe]

theorem inv_after_lcdwr (idx : Nat) (data : Byte) (s : State) (h : Inv s) : Inv (after (.lcdwr idx data) s) where
  memory := Memory.wf_write s.lcdm (directIndex idx) data h.memory
  indTop := h.indTop
  codes := h.codes
  events := h.events
  last := h.last

theorem inv_after_decode (s : State) (h : Inv s) : Inv (after .decode s) where
  memory := h.memory
  indTop := decodeInd_top s.cfg.indmap s.lcdm
  codes := h.codes
  events := h.events
  last := h.last

theorem wholeFrame_frameEvent (s : State) : WholeFrame (frameEvent s) :=
  ⟨decodeMasks s.cfg.segmap s.lcdm, decodeInd s.cfg.indmap s.lcdm, decodeInd_top _ _, rfl⟩

theorem after_render_out (s : State) : (after .render s).out = s.out ++ [frameEvent s] := rfl

/-- A RENDER draws a frame of the allowed codes and emits exactly that frame. -/
theorem inv_after_render (s : State) (h : Inv s) : Inv (after .render s) where
  memory := h.memory
  indTop := decodeInd_top s.cfg.indmap s.lcdm
  codes := frameCodes_frameOf _ _
  events := by
    intro e he
    rw [after_render_out, List.mem_append, List.mem_singleton] at he
    rcases he with hold | rfl
    · exact h.events e hold
    · exact wholeFrame_frameEvent s
  last := by
    unfold FrameIsLastEvent
    rw [after_render_out, List.getLast?_concat]
    rfl

/-- Every command keeps the invariant: three commands write the state it speaks of, the others write the response. -/
theorem inv_after (i : Instr) (s : State) (h : Inv s) : Inv (after i s) := by
  cases i with
  | lcdwr idx data => exact inv_after_lcdwr idx data s h
  | decode => exact inv_after_decode s h
  | render => exact inv_after_render s h
  | nop | lcdrd idx | maskrd idx | indrd => exact inv_congr h rfl rfl rfl rfl

/-- Settles O3: taking a word off the list and responding keep the invariant (`inv_congr`), and so does every command
(`inv_after`). -/
theorem everyStepKeepsInvariant : Obligations.EveryStepKeepsInvariant := by
  intro s t h hstep
  obtain ⟨-, rfl⟩ | ⟨-, ws, i, -, -, rfl⟩ | ⟨-, ws, -, -, -, rfl⟩ := step_cases s t hstep
  case inl => exact h
  case inr.inl => exact inv_after i { s with pending := ws } (inv_congr h rfl rfl rfl rfl)
  case inr.inr => exact inv_congr h rfl rfl rfl rfl

/-- Settles O2: the listed `LCDM_RESET` is canonical (`Memory.wf_ofBytes`), the frame is blank and the trace empty. -/
theorem invariantHoldsAtReset : Obligations.InvariantHoldsAtReset := fun cfg =>
  { memory := Memory.wf_ofBytes cfg.lcdmReset.toList 0 (by rw [cfg.lcdmReset.length_toList, Nat.zero_add])
    indTop := BitVec.zero_and
    codes := frameCodes_blankFrame
    events := fun _ he => absurd he List.not_mem_nil
    last := rfl }

end Sys2Proof.Proofs.Invariant

/-! PROOFS. Command words and the step that runs them: spec/30_encoding.md sections 1 to 4, spec/20_memory.md sections 4
and 7. -/

namespace Sys2Proof.Proofs.Words

open Sys2Proof.Machine Sys2Proof.Proofs.Encoding Sys2Proof.Proofs.State

/-- The operation code of the canonical word is the command's. -/
theorem cmdOp_encode (i : Instr) : cmdOp (encode i) = i.op := by cases i <;> exact cmdOp_pack _ _ _

/-- The fields of the canonical word are the operands, when they fit (R72). -/
theorem readOperands_encode (i : Instr) (h : i.wf = true) : readOperands (encode i) i = i := by
  cases i with
  | lcdwr idx data =>
    have hidx : cmdIdx (encode (.lcdwr idx data)) = idx := cmdIdx_pack _ idx data (of_decide_eq_true h)
    have hdata : cmdData (encode (.lcdwr idx data)) = data := cmdData_pack _ idx data
    rw [readOperands, hidx, hdata]
  | lcdrd idx => exact congrArg Instr.lcdrd (cmdIdx_pack _ idx _ (of_decide_eq_true h))
  | maskrd idx => exact congrArg Instr.maskrd (cmdIdx_pack _ idx _ (of_decide_eq_true h))
  | nop | indrd | decode | render => rfl

/-- Settles O4: the canonical word selects its command's row (`cmdOp_encode`) and holds its operands
(`readOperands_encode`). -/
theorem decodeOfEncodeGivesTheCommand : Obligations.DecodeOfEncodeGivesTheCommand := fun i h =>
  (decode_eq_instr_iff (encode i) i).mpr ⟨cmdOp_encode i, readOperands_encode i h⟩

/-- Settles O7: the operation code of such a word is 7 or more, so the decoder rejects it (`decode_rejected_iff`) and
the step absorbs it (`step_of_rejected`). -/
theorem reservedWordsAreAbsorbed : Obligations.ReservedWordsAreAbsorbed := by
  intro s w ws hp hw
  have hop : 7 ≤ (cmdOp w).toNat := by rw [cmdOp_toNat]; omega
  obtain ⟨r, hr⟩ := (decode_rejected_iff w).mpr hop
  exact ⟨⟨r, hr⟩, step_of_rejected s w ws r hp hr⟩

/-- Settles O8: each of the eight words decoded. -/
theorem workedWordsDecode : Obligations.WorkedWordsDecode := by
  unfold Obligations.WorkedWordsDecode
  decide

/-- Settles O9: a step with a command is `after` of it (`step_of_instr`), and so is `exec` (`exec_eq_after`). -/
theorem stepRunsTheDecodedCommand : Obligations.StepRunsTheDecodedCommand := by
  intro s w ws i hp hd
  rw [step_of_instr s w ws i hp hd, exec_eq_after]

/-- Settles O10: with no word pending there is nothing to fetch (`step_idle`). -/
theorem idleStepChangesNothing : Obligations.IdleStepChangesNothing := step_idle

end Sys2Proof.Proofs.Words

/-! PROOFS. What a command can write and what a step does not read: spec/10_state.md sections 2 and 6,
spec/60_exceptions.md section 8. -/

namespace Sys2Proof.Proofs.Writers

open Sys2Proof.Machine Sys2Proof.Claims Sys2Proof.Proofs.State

/-! ## The writers of each state -/

theorem after_lcdm (i : Instr) (s : State) (h : ∀ (idx : Nat) (data : Byte), i ≠ .lcdwr idx data) :
    (after i s).lcdm = s.lcdm := by
  cases i with
  | lcdwr idx data => exact absurd rfl (h idx data)
  | _ => rfl

theorem after_latches (i : Instr) (s : State) (hd : i ≠ .decode) (hr : i ≠ .render) :
    (after i s).mask = s.mask ∧ (after i s).ind = s.ind := by
  cases i with
  | decode => exact absurd rfl hd
  | render => exact absurd rfl hr
  | _ => exact ⟨rfl, rfl⟩

theorem after_frame_out (i : Instr) (s : State) (h : i ≠ .render) :
    (after i s).frame = s.frame ∧ (after i s).out = s.out := by
  cases i with
  | render => exact absurd rfl h
  | _ => exact ⟨rfl, rfl⟩

/-- Settles O14: the next state is `after` (`exec_next_iff`), which writes each object in its own commands only. -/
theorem eachStateHasItsOwnWriters : Obligations.EachStateHasItsOwnWriters := by
  intro i s t h
  obtain rfl := (exec_next_iff i s t).mp h
  exact ⟨after_lcdm i s, after_latches i s, after_frame_out i s⟩

/-! ## The tick rate -/

/-- No command reads the tick rate. -/
theorem after_withTickHz (i : Instr) (s : State) (n : Nat) :
    after i (withTickHz n s) = withTickHz n (after i s) := by cases i <;> rfl

/-- Settles O15: what the oldest word is does not depend on the tick rate, and a command commutes with changing it
(`after_withTickHz`). -/
theorem tickRateDecidesNothing : Obligations.TickRateDecidesNothing := by
  intro s t n h
  obtain ⟨hp, rfl⟩ | ⟨w, ws, i, hp, hd, rfl⟩ | ⟨w, ws, r, hp, hd, rfl⟩ := step_cases s t h
  case inl => exact step_idle (withTickHz n t) hp
  case inr.inl =>
    rw [step_of_instr (withTickHz n s) w ws i hp hd]
    exact congrArg _ (after_withTickHz i { s with pending := ws } n)
  case inr.inr => exact step_of_rejected (withTickHz n s) w ws r hp hd

end Sys2Proof.Proofs.Writers

/-! PROOFS. The bytes a list of commands leaves in the buffer: spec/20_memory.md section 7, spec/40_buffer_access.md
section 2. -/

namespace Sys2Proof.Proofs.Stores

open Sys2Proof.Machine Sys2Proof.Claims Sys2Proof.Proofs.Decode

/-! ## The state after a list of commands -/

/-- The state a list of commands leaves (`execAll_eq_afterAll`). -/
def afterAll (cs : List Instr) (s : State) : State := cs.foldl (fun x i => after i x) s

theorem execAll_eq_afterAll (cs : List Instr) (s : State) : execAll cs s = .next (afterAll cs s) := execAll_eq cs s

@[simp] theorem afterAll_nil (s : State) : afterAll [] s = s := rfl

@[simp] theorem afterAll_cons (i : Instr) (cs : List Instr) (s : State) :
    afterAll (i :: cs) s = afterAll cs (after i s) := rfl

@[simp] theorem afterAll_append (cs ds : List Instr) (s : State) :
    afterAll (cs ++ ds) s = afterAll ds (afterAll cs s) := List.foldl_append

@[simp] theorem afterAll_cfg (cs : List Instr) (s : State) : (afterAll cs s).cfg = s.cfg := by
  induction cs generalizing s with
  | nil => rfl
  | cons i cs ih => rw [afterAll_cons, ih, after_cfg]

/-! ## The latest store -/

theorem latestStore_cons (a : Nat) (i : Instr) (cs : List Instr) :
    latestStore a (i :: cs) = (latestStore a cs).or (storedAt a i) := by
  rw [latestStore]
  cases latestStore a cs <;> rfl

theorem latestStore_append (a : Nat) (cs ds : List Instr) :
    latestStore a (cs ++ ds) = (latestStore a ds).or (latestStore a cs) := by
  induction cs with
  | nil => exact Option.or_none.symm
  | cons i cs ih => rw [List.cons_append, latestStore_cons, latestStore_cons, ih, Option.or_assoc]

theorem after_lcdwr_lcdm (idx : Nat) (data : Byte) (s : State) :
    (after (.lcdwr idx data) s).lcdm = s.lcdm.write (directIndex idx) data := rfl

/-- One command leaves in a byte what it stores there, or what the byte held. -/
theorem read_after (i : Instr) (s : State) (a : Nat) (h : a < bufLen) :
    (after i s).lcdm.read a = (storedAt a i).getD (s.lcdm.read a) := by
  cases i with
  | lcdwr idx data =>
    rw [after_lcdwr_lcdm]
    by_cases hidx : directIndex idx = a
    · rw [hidx, Memory.read_write_same _ _ _ h, storedAt, if_pos hidx, Option.getD_some]
    · rw [Memory.read_write_other _ _ _ _ (Ne.symm hidx), storedAt, if_neg hidx, Option.getD_none]
  | _ => rfl

/-- A list of commands leaves in a byte the latest store to it, or what it held. -/
theorem read_afterAll (cs : List Instr) (s : State) (a : Nat) (h : a < bufLen) :
    (afterAll cs s).lcdm.read a = (latestStore a cs).getD (s.lcdm.read a) := by
  induction cs generalizing s with
  | nil => rfl
  | cons i cs ih =>
    rw [afterAll_cons, ih, read_after i s a h, latestStore_cons]
    cases latestStore a cs <;> rfl

/-- The latches after a DECODE and after a RENDER alike are the flags of the buffer (R125, R150). -/
theorem latchesDecode_of_exec (t u : State) (h : exec .decode t = .next u ∨ exec .render t = .next u) :
    LatchesDecode t u := by
  rw [exec_next_iff, exec_next_iff] at h
  rcases h with rfl | rfl <;> exact latchesDecode_of_decoded t _ rfl rfl

/-- Settles O20: the bytes by `read_afterAll`; LCDRD responds with a byte and the flags test it
(`latchesDecode_of_exec`). -/
theorem latestStoreIsRead : Obligations.LatestStoreIsRead := by
  intro cs s
  refine ⟨afterAll cs s, execAll_eq_afterAll cs s, fun i hi => ⟨read_afterAll cs s i hi, ?load⟩, fun u hu => ?flags⟩
  case load =>
    rw [← read_afterAll cs s i hi]
    exact exec_eq_after (.lcdrd i) (afterAll cs s)
  case flags =>
    obtain ⟨hseg, hind, -⟩ := latchesDecode_of_exec _ u hu
    rw [afterAll_cfg] at hseg hind
    refine ⟨fun p f hrange => ?segment, fun k hrange => ?indicator⟩
    case segment => rw [← read_afterAll cs s _ hrange]; exact hseg p f
    case indicator => rw [← read_afterAll cs s _ hrange]; exact hind k

/-! ## Stores at every index -/

/-- A store at each index of the buffer. -/
def storeAll (b : Nat → Byte) : List Instr := (List.range bufLen).map fun i => .lcdwr i (b i)

theorem latestStore_range (b : Nat → Byte) (a n : Nat) :
    latestStore a ((List.range n).map fun i => .lcdwr i (b i)) = if a < n then some (b a) else none := by
  induction n with
  | zero => rfl
  | succ n ih =>
    have hlast : latestStore a [.lcdwr n (b n)] = if n = a then some (b n) else none := rfl
    rw [List.range_succ, List.map_append, latestStore_append, ih, List.map_singleton, hlast]
    by_cases ha : n = a
    · rw [if_pos ha, Option.some_or, if_pos (by omega), ha]
    · rw [if_neg ha, Option.none_or]
      exact if_congr (by omega) rfl rfl

theorem read_storeAll (b : Nat → Byte) (s : State) (a : Nat) (h : a < bufLen) :
    (afterAll (storeAll b) s).lcdm.read a = b a := by
  rw [read_afterAll _ s a h, storeAll, latestStore_range, if_pos h, Option.getD_some]

/-- Everything but the buffer and the response is the same in two states. -/
def SameButBuffer (s t : State) : Prop :=
  t.mask = s.mask ∧ t.ind = s.ind ∧ t.frame = s.frame ∧ t.out = s.out ∧ t.cfg = s.cfg ∧ t.pending = s.pending

theorem sameButBuffer_refl (s : State) : SameButBuffer s s := ⟨rfl, rfl, rfl, rfl, rfl, rfl⟩

/-- Stores change nothing but the buffer and the response (R57, R101). -/
theorem sameButBuffer_stores (b : Nat → Byte) (is : List Nat) (s : State) :
    SameButBuffer s (afterAll (is.map fun i => .lcdwr i (b i)) s) := by
  induction is generalizing s with
  | nil => exact sameButBuffer_refl s
  | cons i is ih => exact ih (after (.lcdwr i (b i)) s)

/-! ## Sequences of an agent -/

/-- Commands that do not use the agent's temporary run as they stand. -/
theorem agentAfter_issue (cs : List Instr) (t : Byte) (s : State) :
    agentAfter (cs.map .issue) t s = afterAll cs s := by
  induction cs generalizing s with
  | nil => rfl
  | cons i cs ih => exact ih (after i s)

theorem expand_lcdzero (cfg : Config) : Pseudo.expand cfg .lcdzero = (storeAll fun _ => 0x00#8).map .issue := by
  rw [storeAll, List.map_map]
  rfl

/-- Settles O42: LCDZERO is a store of 0x00 at each index (`expand_lcdzero`); past the buffer every read is 0x00. -/
theorem lcdzeroClearsTheBuffer : Obligations.LcdzeroClearsTheBuffer := by
  intro s t0
  rw [expand_lcdzero, agentRun_eq, agentAfter_issue]
  refine ⟨_, rfl, fun a => ?zero, sameButBuffer_stores (fun _ => 0x00#8) (List.range bufLen) s⟩
  case zero =>
    by_cases ha : a < bufLen
    · exact read_storeAll (fun _ => 0x00#8) s a ha
    · exact Memory.read_out_of_range _ a ha

/-- LCDSET runs as one LCDWR of the byte with the mask's bits set (R81). -/
theorem agentRun_lcdset (idx : Nat) (m t0 : Byte) (s : State) :
    agentRun (lcdsetCmds idx m) t0 s = exec (.lcdwr idx (s.lcdm.read idx ||| m)) s := rfl

/-- LCDCLR runs as one LCDWR of the byte with the mask's bits cleared (R81). -/
theorem agentRun_lcdclr (idx : Nat) (m t0 : Byte) (s : State) :
    agentRun (lcdclrCmds idx m) t0 s = exec (.lcdwr idx (s.lcdm.read idx &&& ~~~m)) s := rfl

/-- An LCDWR changes at most one byte and the response (R101). -/
theorem exec_lcdwr_effect (s : State) (idx : Nat) (v : Byte) (h : idx ≤ 15) :
    ∃ t : State, exec (.lcdwr idx v) s = .next t ∧ (idx ≤ 12 → t.lcdm.read idx = v) ∧
      (∀ a : Nat, a ≠ idx → t.lcdm.read a = s.lcdm.read a) ∧ (13 ≤ idx → t.lcdm = s.lcdm) ∧ SameButBuffer s t := by
  obtain ⟨-, t, hexec, hstored, hother, habsorbed, -, hrest⟩ := BufferAccess.lcdwrStoresOneByte s idx v h
  exact ⟨t, hexec, hstored, hother, habsorbed, hrest⟩

/-- Settles O41: both expansions are one LCDWR of the changed byte. -/
theorem setAndClearChangeChosenBits : Obligations.SetAndClearChangeChosenBits := by
  intro s idx m t0 hidx
  rw [Pseudo.expand, Pseudo.expand, agentRun_lcdset, agentRun_lcdclr]
  exact ⟨exec_lcdwr_effect s idx _ hidx, exec_lcdwr_effect s idx _ hidx⟩

end Sys2Proof.Proofs.Stores

/-! PROOFS. The laws of DECODE and of DIGIT: spec/41_decode.md section 4, spec/60_exceptions.md section 1,
spec/30_encoding.md section 7. -/

namespace Sys2Proof.Proofs.DecodeLaws

open Sys2Proof.Machine Sys2Proof.Claims Sys2Proof.Proofs.Decode Sys2Proof.Proofs.Stores

/-! ## A decode by its tests -/

theorem after_decode_mask (s : State) (p : Fin npos) :
    (after .decode s).mask[p] = decodePos s.cfg.segmap s.lcdm p := decodeMasks_get _ _ p.val p.isLt

theorem after_decode_ind (s : State) : (after .decode s).ind = decodeInd s.cfg.indmap s.lcdm := rfl

/-- A mask is decoded exactly when its flags are the tests of its entries. -/
theorem decodePos_eq {sm : Segmap} {m : Memory} {p : Fin npos} {v : Byte}
    (h : ∀ f : SegFlag, test m (sm[p][f.number]) = segLit v f) : decodePos sm m p = v :=
  byte_ext_segLit _ v fun f => by rw [segLit_decodePos, h]

theorem decodePos_congr {sm : Segmap} {m n : Memory} {p : Fin npos}
    (h : ∀ f : SegFlag, test m (sm[p][f.number]) = test n (sm[p][f.number])) : decodePos sm m p = decodePos sm n p :=
  decodePos_eq fun f => by rw [segLit_decodePos, h]

/-- An indicator value without bits 5 to 7 is decoded when its flags are the tests of the entries. -/
theorem decodeInd_eq {im : Indmap} {m : Memory} {v : Byte} (hv : Safety.IndTop v)
    (h : ∀ k : Indicator, test m (im[k.number]) = indLit v k) : decodeInd im m = v :=
  ind_ext_indLit _ v (decodeInd_top im m) hv fun k => by rw [indLit_decodeInd, h]

theorem decodeInd_congr {im : Indmap} {m n : Memory}
    (h : ∀ k : Indicator, test m (im[k.number]) = test n (im[k.number])) : decodeInd im m = decodeInd im n :=
  decodeInd_eq (decodeInd_top im n) fun k => by rw [indLit_decodeInd, h]

/-! ## Irregular entries (R201) -/

theorem test_of_mask_zero (m : Memory) (e : MapEntry) (h : e.mask = 0x00#8) : test m e = false := by
  simp [test, h]

/-- One common bit of byte and mask is enough for the test (R123). -/
theorem test_of_common_bit (m : Memory) (e : MapEntry) (b : Nat) (hmask : e.mask.getLsbD b = true)
    (hbyte : (m.read e.byte.toNat).getLsbD b = true) : test m e = true := by
  rw [test_eq_true_iff]
  intro hzero
  have hbit := congrArg (BitVec.getLsbD · b) hzero
  simp [hmask, hbyte] at hbit

/-- Settles O25: each flag is the test of its entry (`getLsbD_decodePos`, `getLsbD_decodeInd`), so equal entries have
equal flags, and the test of an irregular entry is known. -/
theorem irregularEntriesHaveDefinedFlags : Obligations.IrregularEntriesHaveDefinedFlags := by
  intro s t p f h
  obtain rfl := (exec_next_iff .decode s t).mp h
  have hseg (q : Fin npos) (g : Fin nflag) :
      ((after .decode s).mask[q]).getLsbD g.val = test s.lcdm (s.cfg.segmap[q][g]) := by
    rw [after_decode_mask, getLsbD_decodePos]
  have hind (k : Fin nind) : (after .decode s).ind.getLsbD k.val = test s.lcdm (s.cfg.indmap[k]) := by
    rw [after_decode_ind, getLsbD_decodeInd]
  simp only [hseg, hind]
  refine ⟨fun hout => test_out_of_range _ _ (Nat.not_lt.mpr hout), test_of_mask_zero _ _,
    fun b => test_of_common_bit _ _ b.val, fun q g he => congrArg _ he,
    fun k hout => test_out_of_range _ _ (Nat.not_lt.mpr hout), fun k => test_of_mask_zero _ _,
    fun k b => test_of_common_bit _ _ b.val, fun k l he => congrArg _ he, fun k he => congrArg _ he⟩

/-! ## OR of buffers -/

theorem or_and_ne_zero_iff (v w m : Byte) : (v ||| w) &&& m ≠ 0x00#8 ↔ v &&& m ≠ 0x00#8 ∨ w &&& m ≠ 0x00#8 := by
  rw [BitVec.and_or_distrib_right, ne_eq, BitVec.or_eq_zero_iff, not_and_or]

/-- The test of an OR of buffers is the OR of the tests; out of range all three are false. -/
theorem test_or (m x y : Memory) (e : MapEntry) (h : ∀ i, i < bufLen → m.read i = x.read i ||| y.read i) :
    test m e = (test x e || test y e) := by
  by_cases he : e.byte.toNat < bufLen
  · rw [Bool.eq_iff_iff, Bool.or_eq_true, test_eq_true_iff, test_eq_true_iff, test_eq_true_iff, h _ he,
      or_and_ne_zero_iff]
  · rw [test_out_of_range m e he, test_out_of_range x e he, test_out_of_range y e he, Bool.or_false]

theorem segLit_or (v w : Byte) (f : SegFlag) : segLit (v ||| w) f = (segLit v f || segLit w f) := by
  rw [segLit_eq_getLsbD, segLit_eq_getLsbD, segLit_eq_getLsbD, BitVec.getLsbD_or]

theorem indLit_or (v w : Byte) (k : Indicator) : indLit (v ||| w) k = (indLit v k || indLit w k) := by
  rw [indLit_eq_getLsbD, indLit_eq_getLsbD, indLit_eq_getLsbD, BitVec.getLsbD_or]

theorem indTop_or (v w : Byte) (hv : Safety.IndTop v) (hw : Safety.IndTop w) : Safety.IndTop (v ||| w) := by
  rw [Safety.IndTop, BitVec.and_or_distrib_right, hv, hw, BitVec.or_self]

/-- Settles O28: a decode is its tests (`decodePos_eq`, `decodeInd_eq`), and each test distributes (`test_or`). -/
theorem decodeDistributesOverOr : Obligations.DecodeDistributesOverOr := by
  intro s x y s' x' y' hx hy hor hs' hx' hy'
  obtain rfl := (exec_next_iff .decode s s').mp hs'
  obtain rfl := (exec_next_iff .decode x x').mp hx'
  obtain rfl := (exec_next_iff .decode y y').mp hy'
  simp only [after_decode_mask, after_decode_ind, hx, hy]
  constructor
  · intro p
    exact decodePos_eq fun f => by rw [segLit_or, segLit_decodePos, segLit_decodePos, test_or _ _ _ _ hor]
  · refine decodeInd_eq (indTop_or _ _ (decodeInd_top _ _) (decodeInd_top _ _)) fun k => ?_
    rw [indLit_or, indLit_decodeInd, indLit_decodeInd, test_or _ _ _ _ hor]

/-! ## One-hot masks -/

theorem oneHot_eq_twoPow (m : Byte) (h : OneHot m) : ∃ i < 8, m = BitVec.twoPow 8 i := by
  have hall : ∀ m ∈ [0x01#8, 0x02#8, 0x04#8, 0x08#8, 0x10#8, 0x20#8, 0x40#8, 0x80#8],
      ∃ i < 8, m = BitVec.twoPow 8 i := by decide
  exact hall m h

/-- Two one-bit masks share a bit only when they are equal. -/
theorem oneHot_and_ne_zero_iff (m n : Byte) (hm : OneHot m) (hn : OneHot n) : m &&& n ≠ 0x00#8 ↔ m = n := by
  obtain ⟨i, hi, rfl⟩ := oneHot_eq_twoPow m hm
  obtain ⟨j, hj, rfl⟩ := oneHot_eq_twoPow n hn
  rw [← bne_iff_ne, and_twoPow_bne_zero _ j hj, BitVec.getLsbD_twoPow, decide_eq_true hi, Bool.true_and,
    decide_eq_true_iff]
  refine ⟨fun h => h ▸ rfl, fun h => ?_⟩
  have hbit := congrArg (BitVec.getLsbD · i) h
  simpa [hi, hj] using hbit

theorem oneHot_ne_zero (m : Byte) (h : OneHot m) : m ≠ 0x00#8 := by
  have hself := (oneHot_and_ne_zero_iff m m h h).mpr rfl
  rwa [BitVec.and_self] at hself

theorem mapEntry_ext (e e' : MapEntry) (hb : e.byte.toNat = e'.byte.toNat) (hm : e.mask = e'.mask) : e = e' := by
  cases e
  cases e'
  rw [MapEntry.mk.injEq]
  exact ⟨BitVec.eq_of_toNat_eq hb, hm⟩

/-! ## The two ends -/

theorem test_of_zero_bytes (m : Memory) (e : MapEntry) (h : ∀ i, i < bufLen → m.read i = 0x00#8) :
    test m e = false := by
  by_cases he : e.byte.toNat < bufLen
  · rw [test, entryIndex, h _ he, BitVec.zero_and, bne_self_eq_false]
  · exact test_out_of_range m e he

theorem test_of_ones_bytes (m : Memory) (e : MapEntry) (h : ∀ i, i < bufLen → m.read i = 0xFF#8) (hr : e.InRange)
    (he : OneHot e.mask) : test m e = true := by
  rw [test_eq_true_iff, h _ hr]
  have hall : 0xFF#8 &&& e.mask = e.mask := BitVec.allOnes_and
  rw [hall]
  exact oneHot_ne_zero e.mask he

/-- Settles O29: every test of zeros is false, and every test of ones of a well-formed entry is true. -/
theorem zeroAndOnesBuffersDecode : Obligations.ZeroAndOnesBuffersDecode := by
  intro s t h
  obtain rfl := (exec_next_iff .decode s t).mp h
  simp only [after_decode_mask, after_decode_ind]
  refine ⟨fun hzero => ⟨fun p => decodePos_eq fun f => ?zeroMask, decodeInd_eq (by decide) fun k => ?zeroInd⟩,
    fun hwf hones => ⟨fun p => decodePos_eq fun f => ?onesMask, decodeInd_eq (by decide) fun k => ?onesInd⟩⟩
  case zeroMask => rw [test_of_zero_bytes _ _ hzero]; cases f <;> rfl
  case zeroInd => rw [test_of_zero_bytes _ _ hzero]; cases k <;> rfl
  case onesMask =>
    obtain ⟨⟨hrange, hhot, -⟩, -⟩ := hwf
    rw [test_of_ones_bytes _ _ hones (hrange p f.number) (hhot p f.number)]
    cases f <;> rfl
  case onesInd =>
    obtain ⟨-, hrange, hhot, -, -⟩ := hwf
    rw [test_of_ones_bytes _ _ hones (hrange k.number) (hhot k.number)]
    cases k <;> rfl

/-! ## Buffers in which the bits of some entries are set -/

/-- The buffer is zero but for the bits of the entries `es`. -/
def HoldsEntries (m : Memory) (es : List MapEntry) : Prop := ∀ i, i < bufLen → m.read i = bytesOf es i

theorem foldl_entries_and_ne_zero_iff (es : List MapEntry) (i : Nat) (m v : Byte) :
    es.foldl (fun v e => if e.byte.toNat = i then v ||| e.mask else v) v &&& m ≠ 0x00#8 ↔
      v &&& m ≠ 0x00#8 ∨ ∃ e ∈ es, e.byte.toNat = i ∧ e.mask &&& m ≠ 0x00#8 := by
  induction es generalizing v with
  | nil => simp
  | cons e es ih =>
    rw [List.foldl_cons, ih]
    by_cases he : e.byte.toNat = i
    · rw [if_pos he, or_and_ne_zero_iff]
      simp [he, or_assoc]
    · simp [he]

/-- Some of the bits `m` are set at an index exactly when one of the entries sets one there. -/
theorem bytesOf_and_ne_zero_iff (es : List MapEntry) (i : Nat) (m : Byte) :
    bytesOf es i &&& m ≠ 0x00#8 ↔ ∃ e ∈ es, e.byte.toNat = i ∧ e.mask &&& m ≠ 0x00#8 := by
  rw [bytesOf, foldl_entries_and_ne_zero_iff]
  simp

/-- Among one-bit entries exactly those in the list test true. -/
theorem test_iff_mem (m : Memory) (es : List MapEntry) (hm : HoldsEntries m es) (hes : ∀ e ∈ es, OneHot e.mask)
    (e : MapEntry) (hr : e.InRange) (he : OneHot e.mask) : test m e = true ↔ e ∈ es := by
  rw [test_eq_true_iff, hm _ hr, bytesOf_and_ne_zero_iff]
  constructor
  · rintro ⟨e', hmem, hbyte, hmask⟩
    have heq : e' = e := mapEntry_ext e' e hbyte ((oneHot_and_ne_zero_iff _ _ (hes e' hmem) he).mp hmask)
    exact heq ▸ hmem
  · exact fun hmem => ⟨e, hmem, rfl, (oneHot_and_ne_zero_iff _ _ he he).mpr rfl⟩

/-- The entries of `es` are those of the flags lit in `masks`. -/
def EntriesOf (sm : Segmap) (masks : Vector Byte npos) (es : List MapEntry) : Prop :=
  ∀ e, e ∈ es ↔ ∃ (p : Fin npos) (f : SegFlag), segLit masks[p] f = true ∧ sm[p][f.number] = e

section
variable {sm : Segmap} {masks : Vector Byte npos} {es : List MapEntry} {m : Memory}

theorem oneHot_of_entriesOf (hwf : sm.WF) (hes : EntriesOf sm masks es) : ∀ e ∈ es, OneHot e.mask := by
  obtain ⟨-, hhot, -⟩ := hwf
  intro e he
  obtain ⟨p, f, -, rfl⟩ := (hes e).mp he
  exact hhot p f.number

/-- Of a well-formed map's entries exactly those of lit flags are in the list: an entry belongs to one flag alone. -/
theorem mem_entriesOf_iff (hwf : sm.WF) (hes : EntriesOf sm masks es) (p : Fin npos) (f : SegFlag) :
    sm[p][f.number] ∈ es ↔ segLit masks[p] f = true := by
  obtain ⟨-, -, hdistinct⟩ := hwf
  rw [hes]
  constructor
  · rintro ⟨q, g, hlit, heq⟩
    obtain ⟨rfl, hnumber⟩ := hdistinct q g.number p f.number heq
    exact SegFlag.number_inj g f hnumber ▸ hlit
  · exact fun hlit => ⟨p, f, hlit, rfl⟩

/-- The buffer that holds the entries of the lit flags decodes to these masks. -/
theorem decodePos_of_entriesOf (hwf : sm.WF) (hes : EntriesOf sm masks es) (hm : HoldsEntries m es) (p : Fin npos) :
    decodePos sm m p = masks[p] := by
  have ⟨hrange, hhot, _⟩ := hwf
  refine decodePos_eq fun f => ?_
  rw [Bool.eq_iff_iff, test_iff_mem m es hm (oneHot_of_entriesOf hwf hes) _ (hrange p f.number) (hhot p f.number),
    mem_entriesOf_iff hwf hes]

/-- It decodes to no indicator: those stand outside the digit map. -/
theorem decodeInd_of_entriesOf {im : Indmap} (hwf : sm.WF) (him : im.WF sm) (hes : EntriesOf sm masks es)
    (hm : HoldsEntries m es) : decodeInd im m = 0x00#8 := by
  obtain ⟨hrange, hhot, -, houtside⟩ := him
  refine decodeInd_eq (by decide) fun k => ?_
  have hnot : im[k.number] ∉ es := by
    intro hmem
    obtain ⟨p, f, -, heq⟩ := (hes _).mp hmem
    exact houtside k.number p f.number heq.symm
  have htest : test m (im[k.number]) = false := by
    rw [Bool.eq_false_iff, ne_eq,
      test_iff_mem m es hm (oneHot_of_entriesOf hwf hes) _ (hrange k.number) (hhot k.number)]
    exact hnot
  rw [htest]
  cases k <;> rfl

end

/-! ## One position lit -/

/-- The masks that are `v` at `p` and zero elsewhere. -/
def singleMask (p : Fin npos) (v : Byte) : Vector Byte npos := Vector.ofFn fun q => if q = p then v else 0x00#8

theorem singleMask_get (p q : Fin npos) (v : Byte) : (singleMask p v)[q] = if q = p then v else 0x00#8 := by
  simp [singleMask]

theorem singleMask_same (p : Fin npos) (v : Byte) : (singleMask p v)[p] = v := by rw [singleMask_get, if_pos rfl]

theorem singleMask_other (p q : Fin npos) (v : Byte) (h : q ≠ p) : (singleMask p v)[q] = 0x00#8 := by
  rw [singleMask_get, if_neg h]

theorem segLit_zero (f : SegFlag) : segLit 0x00#8 f = false := by cases f <;> rfl

theorem entriesOf_singleMask (sm : Segmap) (p : Fin npos) (v : Byte) (es : List MapEntry)
    (h : ∀ e, e ∈ es ↔ ∃ f : SegFlag, segLit v f = true ∧ sm[p][f.number] = e) :
    EntriesOf sm (singleMask p v) es := by
  intro e
  rw [h]
  constructor
  · rintro ⟨f, hlit, heq⟩
    exact ⟨p, f, by rwa [singleMask_same], heq⟩
  · rintro ⟨q, f, hlit, heq⟩
    by_cases hq : q = p
    · subst hq
      rw [singleMask_same] at hlit
      exact ⟨f, hlit, heq⟩
    · rw [singleMask_other p q v hq, segLit_zero] at hlit
      exact absurd hlit Bool.false_ne_true

theorem segLit_bit (f g : SegFlag) : segLit f.bit g = true ↔ g = f := by
  cases f <;> cases g <;> decide

theorem segFlag_bit_eq_shift (f : SegFlag) : f.bit = 0x01#8 <<< f.number.val := by cases f <;> rfl

theorem bytesOf_singleton (e : MapEntry) (i : Nat) :
    bytesOf [e] i = if i = e.byte.toNat then e.mask else 0x00#8 := by
  rw [bytesOf, List.foldl_cons, List.foldl_nil, BitVec.zero_or]
  exact if_congr eq_comm rfl rfl

/-- Settles O26: the buffer holds the entry of one lit flag, so it decodes to the masks in which that flag alone is lit
(`decodePos_of_entriesOf`). -/
theorem oneMappedBitDecodesToItsFlag : Obligations.OneMappedBitDecodesToItsFlag := by
  intro s p f hwf hread
  obtain ⟨flag, rfl⟩ := SegFlag.number_surj f
  have hm : HoldsEntries s.lcdm [s.cfg.segmap[p][flag.number]] := fun i hi => by rw [hread i hi, bytesOf_singleton]
  have hes : EntriesOf s.cfg.segmap (singleMask p flag.bit) [s.cfg.segmap[p][flag.number]] :=
    entriesOf_singleMask _ _ _ _ fun e => by
      simp only [List.mem_singleton, segLit_bit, exists_eq_left, @eq_comm _ e]
  refine ⟨after .decode s, exec_eq_after .decode s, ?_, fun q hq => ?_, fun him => ?_⟩
  · rw [after_decode_mask, decodePos_of_entriesOf hwf hes hm, singleMask_same, segFlag_bit_eq_shift]
  · rw [after_decode_mask, decodePos_of_entriesOf hwf hes hm, singleMask_other p q _ hq]
  · exact decodeInd_of_entriesOf hwf him hes hm

/-! ## Any masks by stores -/

/-- The entries of the flags lit in `masks`. -/
def litEntries (sm : Segmap) (masks : Vector Byte npos) : List MapEntry :=
  positions.flatMap fun p => (SegFlag.all.filter (segLit masks[p])).map fun f => sm[p][f.number]

theorem entriesOf_litEntries (sm : Segmap) (masks : Vector Byte npos) : EntriesOf sm masks (litEntries sm masks) := by
  intro e
  rw [litEntries, List.mem_flatMap]
  constructor
  · rintro ⟨p, -, hmem⟩
    obtain ⟨f, hf, heq⟩ := List.mem_map.mp hmem
    exact ⟨p, f, (List.mem_filter.mp hf).2, heq⟩
  · rintro ⟨p, f, hlit, heq⟩
    exact ⟨p, List.mem_finRange p, List.mem_map.mpr ⟨f, List.mem_filter.mpr ⟨f.mem_all, hlit⟩, heq⟩⟩

/-- The stores that set the bits of the flags lit in `masks` and clear every other bit of the buffer. -/
def maskStores (sm : Segmap) (masks : Vector Byte npos) : List (Nat × Byte) :=
  (List.range bufLen).map fun i => (i, bytesOf (litEntries sm masks) i)

theorem maskStores_instrs (sm : Segmap) (masks : Vector Byte npos) :
    (maskStores sm masks).map (fun x => Instr.lcdwr x.1 x.2) = storeAll (bytesOf (litEntries sm masks)) := by
  rw [maskStores, List.map_map]
  rfl

/-- Settles O27: after `maskStores` the buffer holds the entries of the lit flags, which decode to the masks
(`decodePos_of_entriesOf`). -/
theorem anyMasksCanBeStored : Obligations.AnyMasksCanBeStored := by
  intro s masks hwf
  refine ⟨maskStores s.cfg.segmap masks, _, fun x hx => ?range, execAll_eq_afterAll _ s, ?masks⟩
  case range =>
    obtain ⟨i, hi, rfl⟩ := List.mem_map.mp hx
    exact Nat.le_of_lt_succ (List.mem_range.mp hi)
  case masks =>
    rw [maskStores_instrs, afterAll_append]
    refine Vector.ext fun p hp => ?_
    have hmask := after_decode_mask (afterAll (storeAll (bytesOf (litEntries s.cfg.segmap masks))) s) ⟨p, hp⟩
    rw [afterAll_cfg, decodePos_of_entriesOf hwf (entriesOf_litEntries _ masks) (read_storeAll _ s)] at hmask
    exact hmask

/-! ## DIGIT -/

/-- A byte with the bits of a mask set or cleared. -/
def putBits (b : Bool) (v m : Byte) : Byte := if b then v ||| m else v &&& ~~~m

/-- One LCDWR that sets or clears the bits of a map entry. -/
def putEntry (b : Bool) (e : MapEntry) (s : State) : State :=
  after (.lcdwr (entryIndex e) (putBits b (s.lcdm.read (entryIndex e)) e.mask)) s

theorem putEntry_lcdm (b : Bool) (e : MapEntry) (s : State) : (putEntry b e s).lcdm =
    s.lcdm.write (entryIndex e) (putBits b (s.lcdm.read (entryIndex e)) e.mask) := rfl

theorem putBits_and_same (b : Bool) (v m : Byte) (hm : OneHot m) : (putBits b v m &&& m != 0x00#8) = b := by
  cases b with
  | true =>
    rw [putBits, if_pos rfl, bne_iff_ne, or_and_ne_zero_iff]
    exact .inr ((oneHot_and_ne_zero_iff m m hm hm).mpr rfl)
  | false =>
    have hcleared : v &&& ~~~m &&& m = 0x00#8 := by
      rw [BitVec.and_assoc, BitVec.not_and_self]
      exact BitVec.and_zero
    rw [putBits, if_neg Bool.false_ne_true, hcleared, bne_self_eq_false]

theorem putBits_and_other (b : Bool) (v m n : Byte) (hm : OneHot m) (hn : OneHot n) (hne : m ≠ n) :
    putBits b v m &&& n = v &&& n := by
  have hdisjoint : m &&& n = 0x00#8 := not_not.mp (mt (oneHot_and_ne_zero_iff m n hm hn).mp hne)
  cases b with
  | true => rw [putBits, if_pos rfl, BitVec.and_or_distrib_right, hdisjoint, BitVec.or_zero]
  | false =>
    have hkeep : ~~~m &&& n = n := by
      calc ~~~m &&& n
        _ = m &&& n ||| ~~~m &&& n := by rw [hdisjoint, BitVec.zero_or]
        _ = BitVec.allOnes 8 &&& n := by rw [← BitVec.and_or_distrib_right, BitVec.or_not_self]
        _ = n := BitVec.allOnes_and
    rw [putBits, if_neg Bool.false_ne_true, BitVec.and_assoc, hkeep]

/-- Setting or clearing one entry decides that entry's test and no other's. -/
theorem test_putEntry (b : Bool) (e e' : MapEntry) (s : State) (hr : e.InRange) (he : OneHot e.mask)
    (he' : OneHot e'.mask) : test (putEntry b e s).lcdm e' = if e' = e then b else test s.lcdm e' := by
  rw [test, putEntry_lcdm]
  by_cases hbyte : entryIndex e' = entryIndex e
  · rw [hbyte, Memory.read_write_same _ (entryIndex e) _ hr]
    by_cases hmask : e'.mask = e.mask
    · rw [if_pos (mapEntry_ext e' e hbyte hmask), hmask, putBits_and_same b _ _ he]
    · rw [if_neg fun h => hmask (congrArg _ h), putBits_and_other b _ _ _ he he' (Ne.symm hmask), ← hbyte]
      rfl
  · rw [Memory.read_write_other _ _ _ _ hbyte, if_neg fun h => hbyte (congrArg _ h)]
    rfl

/-- The state after setting and clearing the entries of the flags `fs` of position `p` as `v` says. -/
def putFlags (sm : Segmap) (p : Fin npos) (v : Byte) (fs : List SegFlag) (s : State) : State :=
  fs.foldl (fun x f => putEntry (segLit v f) (sm[p][f.number]) x) s

/-- What an agent's LCDSET or LCDCLR of an entry leaves to the rest of its sequence. -/
theorem agentAfter_entry (b : Bool) (e : MapEntry) (cs : List AgentCmd) (t : Byte) (s : State) :
    agentAfter ((if b then entrySetCmds e else entryClrCmds e) ++ cs) t s =
      agentAfter cs (s.lcdm.read (entryIndex e)) (putEntry b e s) := by cases b <;> rfl

theorem agentAfter_flags (sm : Segmap) (p : Fin npos) (v : Byte) (fs : List SegFlag) (t : Byte) (s : State) :
    agentAfter (fs.flatMap fun f =>
      if segLit v f then entrySetCmds (sm[p][f.number]) else entryClrCmds (sm[p][f.number])) t s =
      putFlags sm p v fs s := by
  induction fs generalizing t s with
  | nil => rfl
  | cons f fs ih =>
    rw [List.flatMap_cons, agentAfter_entry]
    exact ih _ _

theorem putFlags_cfg (sm : Segmap) (p : Fin npos) (v : Byte) (fs : List SegFlag) (s : State) :
    (putFlags sm p v fs s).cfg = s.cfg := by
  induction fs generalizing s with
  | nil => rfl
  | cons f fs ih => exact ih _

/-- An entry that is none of the position's keeps its test. -/
theorem test_putFlags_other (sm : Segmap) (p : Fin npos) (v : Byte) (fs : List SegFlag) (s : State) (e : MapEntry)
    (hwf : sm.WF) (he : OneHot e.mask) (hne : ∀ f : SegFlag, e ≠ sm[p][f.number]) :
    test (putFlags sm p v fs s).lcdm e = test s.lcdm e := by
  have ⟨hrange, hhot, _⟩ := hwf
  induction fs generalizing s with
  | nil => rfl
  | cons f fs ih =>
    have hhead := test_putEntry (segLit v f) _ e s (hrange p f.number) (hhot p f.number) he
    rw [if_neg (hne f)] at hhead
    exact (ih _).trans hhead

/-- The test of a flag's entry is the flag of `v` once the flag has been reached. -/
theorem test_putFlags_own (sm : Segmap) (p : Fin npos) (v : Byte) (fs : List SegFlag) (s : State) (g : SegFlag)
    (hwf : sm.WF) :
    test (putFlags sm p v fs s).lcdm (sm[p][g.number]) =
      if g ∈ fs then segLit v g else test s.lcdm (sm[p][g.number]) := by
  have ⟨hrange, hhot, hdistinct⟩ := hwf
  induction fs generalizing s with
  | nil => rfl
  | cons f fs ih =>
    have hsame : sm[p][g.number] = sm[p][f.number] ↔ g = f :=
      ⟨fun h => SegFlag.number_inj g f (hdistinct p g.number p f.number h).2, fun h => h ▸ rfl⟩
    have hhead := test_putEntry (segLit v f) _ (sm[p][g.number]) s (hrange p f.number) (hhot p f.number)
      (hhot p g.number)
    have htail := ih (putEntry (segLit v f) (sm[p][f.number]) s)
    rw [hhead, if_congr hsame rfl rfl] at htail
    refine htail.trans ?_
    by_cases hmem : g ∈ fs
    · rw [if_pos hmem, if_pos (List.mem_cons_of_mem f hmem)]
    · by_cases hg : g = f
      · subst hg
        rw [if_neg hmem, if_pos rfl, if_pos List.mem_cons_self]
      · rw [if_neg hmem, if_neg hg, if_neg (by simp [hg, hmem])]

/-- The entries of a well-formed map have indices the `idx` field holds (R84). -/
theorem digit_assembles (cfg : Config) (p : Fin npos) (v : Byte) (h : cfg.segmap.WF) :
    (Pseudo.digit p v).assembles cfg = true := by
  obtain ⟨hrange, -, -⟩ := h
  refine List.all_eq_true.mpr fun f _ => decide_eq_true ?_
  have hlt : entryIndex (cfg.segmap[p][f.number]) < 13 := hrange p f.number
  omega

/-- DIGIT sets or clears each of the position's eight entries (R81). -/
theorem agentRun_digit (cfg : Config) (p : Fin npos) (v t0 : Byte) (s : State) :
    agentRun (Pseudo.expand cfg (.digit p v)) t0 s = .next (putFlags cfg.segmap p v SegFlag.all s) := by
  rw [agentRun_eq]
  exact congrArg _ (agentAfter_flags cfg.segmap p v SegFlag.all t0 s)

/-- Settles O43: DIGIT sets or clears each of the position's entries (`agentRun_digit`); after that their tests are
the flags of `v` (`test_putFlags_own`), and the entries of other positions and of the indicators keep theirs
(`test_putFlags_other`), since well-formed maps name different bits. -/
theorem digitShowsItsMaskAndNothingElse : Obligations.DigitShowsItsMaskAndNothingElse := by
  intro s d p v t0 ⟨hseg, hind⟩ hd
  obtain rfl := (exec_next_iff .decode s d).mp hd
  refine ⟨_, _, _, if_pos (digit_assembles s.cfg p v hseg), agentRun_digit s.cfg p v t0 s, exec_eq_after .decode _,
    ?own, fun q hq => ?other, ?indicators⟩
  case own =>
    rw [after_decode_mask, putFlags_cfg]
    refine decodePos_eq fun f => ?_
    rw [test_putFlags_own s.cfg.segmap p v SegFlag.all s f hseg, if_pos f.mem_all]
  case other =>
    have ⟨_, hhot, hdistinct⟩ := hseg
    rw [after_decode_mask, after_decode_mask, putFlags_cfg]
    refine decodePos_congr fun f => test_putFlags_other _ p v _ s _ hseg (hhot q f.number) fun g h => hq ?_
    exact (hdistinct q f.number p g.number h).1
  case indicators =>
    obtain ⟨-, hhot, -, houtside⟩ := hind
    rw [after_decode_ind, after_decode_ind, putFlags_cfg]
    exact decodeInd_congr fun k =>
      test_putFlags_other _ p v _ s _ hseg (hhot k.number) fun f => houtside k.number p f.number

end Sys2Proof.Proofs.DecodeLaws

/-! PROOFS. The laws of RENDER: spec/42_render.md sections 2, 4 and 7. -/

namespace Sys2Proof.Proofs.RenderLaws

open Sys2Proof.Machine Sys2Proof.Safety Sys2Proof.Claims Sys2Proof.Proofs.State Sys2Proof.Proofs.Decode
  Sys2Proof.Proofs.Render Sys2Proof.Proofs.Invariant Sys2Proof.Proofs.DecodeLaws

/-! ## What a RENDER leaves -/

theorem after_render_mask (s : State) (p : Fin npos) :
    (after .render s).mask[p] = decodePos s.cfg.segmap s.lcdm p := decodeMasks_get _ _ p.val p.isLt

theorem after_render_masks (s : State) : (after .render s).mask = decodeMasks s.cfg.segmap s.lcdm := rfl

theorem after_render_ind (s : State) : (after .render s).ind = decodeInd s.cfg.indmap s.lcdm := rfl

theorem after_render_frame (s : State) :
    (after .render s).frame = frameOf (after .render s).mask (after .render s).ind := rfl

/-- The event of a RENDER is the one its trace ends with. -/
theorem event_of_after_render {s : State} {e : List Byte} (h : (after .render s).out = s.out ++ [e]) :
    e = frameEvent s := by
  rw [after_render_out] at h
  exact (List.singleton_inj.mp (List.append_cancel_left h)).symm

/-! ## The cells of a drawn frame (R161) -/

theorem overlayCell_of_not_mem (ind : Byte) (r c : Nat) (x : Byte) (h : (r, c) ∉ indicatorCells) :
    overlayCell ind r c x = x :=
  overlayCell_unowned ind r c x fun k ch hk => h (mem_indicatorCells k r c ch hk)

theorem frameOf_getElem? (masks : Vector Byte npos) (ind : Byte) (r : Fin frameH) (c : Nat) (h : c < frameW) :
    ((frameOf masks ind)[r])[c]? = some (overlayCell ind r.val c (composeCell masks r.val c)) := by
  rw [Vector.getElem?_eq_getElem h]
  exact congrArg some (frameOf_get masks ind r.val c r.isLt h)

/-- The only cells of a position that an indicator has are the colon's, in the gap column of position 6 (R159). -/
theorem mem_indicatorCells_position (p : Fin npos) (r c : Nat) (hc : c < glyphW)
    (h : (r, col p + c) ∈ indicatorCells) : c = 4 ∧ p.val = 6 ∧ (r = 1 ∨ r = 3) := by
  have hp : p.val < 8 := p.isLt
  simp only [indicatorCells, List.mem_cons, List.not_mem_nil, Prod.mk.injEq, or_false, col, leftMargin, glyphW,
    npos] at h hc
  omega

/-- The cells of a position that no indicator can have show its glyph. -/
theorem drawnCell_position (masks : Vector Byte npos) (ind : Byte) (p : Fin npos) (r c : Nat) (hc : c < glyphW)
    (h : c < 4 ∨ r = 4) :
    overlayCell ind r (col p + c) (composeCell masks r (col p + c)) = glyphCell masks[p] r c := by
  have hnot : (r, col p + c) ∉ indicatorCells := by
    intro hmem
    obtain ⟨hgap, -, hrow⟩ := mem_indicatorCells_position p r c hc hmem
    omega
  rw [overlayCell_of_not_mem ind r _ _ hnot, composeCell_position masks p r c hc]

/-- Settles O37: a position's cells by `drawnCell_position`; a gap cell is blank after `Compose()`
(`composeCell_gap`) and belongs to an indicator only at the colon; column 2 is margin. -/
theorem frameCellsAreLocal : Obligations.FrameCellsAreLocal := by
  intro s t h r
  obtain rfl := (exec_next_iff .render s t).mp h
  rw [after_render_frame]
  refine ⟨fun p c hshown => ?glyphCell, fun p hr hcolon => ?gap, ?margin⟩
  case glyphCell =>
    have hglyph : (glyph (after .render s).mask[p])[r][c] = glyphCell (after .render s).mask[p] r.val c.val :=
      glyph_get _ _ _ r.isLt c.isLt
    rw [hglyph, ← drawnCell_position _ (after .render s).ind p r.val c.val c.isLt hshown]
    exact frameOf_getElem? _ _ r (col p + c.val) (col_add_lt_frameW p c.val c.isLt)
  case gap =>
    have hnot : (r.val, col p + 4) ∉ indicatorCells := fun hmem =>
      hcolon (mem_indicatorCells_position p r.val 4 (by decide) hmem).2
    refine (frameOf_getElem? _ _ r (col p + 4) (col_add_lt_frameW p 4 (by decide))).trans (congrArg some ?_)
    rw [overlayCell_of_not_mem _ _ _ _ hnot, composeCell_gap _ p r.val (Nat.ne_of_lt hr)]
    rfl
  case margin =>
    rw [frameOf_getElem? _ _ r 2 (by decide),
      overlayCell_of_not_mem _ _ _ _ (column_two_not_mem_indicatorCells r.val), composeCell_margin _ _ 2 (by decide)]
    rfl

/-! ## A frame shows its masks and indicators -/

/-- A cell of a segment, never one an indicator can have. -/
def segAnchor (f : SegFlag) : Nat × Nat := f.cells.headD (0, 0)

theorem segAnchor_mem (f : SegFlag) : segAnchor f ∈ f.cells := by cases f <;> decide

theorem segAnchor_bounds (f : SegFlag) :
    (segAnchor f).1 < glyphH ∧ (segAnchor f).2 < glyphW ∧ ((segAnchor f).2 < 4 ∨ (segAnchor f).1 = 4) := by
  cases f <;> decide

/-- A cell of an indicator and its character. -/
def indAnchor (k : Indicator) : Nat × Nat × Byte := k.glyph.headD (0, 0, space)

theorem indAnchor_mem (k : Indicator) : indAnchor k ∈ k.glyph := by cases k <;> decide

theorem indAnchor_bounds (k : Indicator) : (indAnchor k).1 < frameH ∧ (indAnchor k).2.1 < frameW := by
  cases k <;> decide

/-- `Compose()` leaves a space in an indicator's cell (R159). -/
theorem composeCell_indAnchor (masks : Vector Byte npos) (k : Indicator) :
    composeCell masks (indAnchor k).1 (indAnchor k).2.1 = space := by
  cases k with
  | colon => exact composeCell_gap masks 6 1 (by decide)
  | am | pm | sign | batdiv => exact composeCell_margin masks _ _ (by decide)

theorem bool_eq_of_ite_eq {a b : Bool} {x y : Byte} (hne : x ≠ y)
    (h : (if a then x else y) = if b then x else y) : a = b := by
  match a, b with
  | false, false | true, true => rfl
  | true, false => exact absurd h hne
  | false, true => exact absurd h.symm hne

theorem glyphCell_segAnchor (m : Byte) (f : SegFlag) :
    glyphCell m (segAnchor f).1 (segAnchor f).2 = if segLit m f then f.char else space :=
  glyphCell_owned m f (segAnchor f).1 (segAnchor f).2 (segAnchor_mem f)

theorem overlayCell_indAnchor (ind x : Byte) (k : Indicator) :
    overlayCell ind (indAnchor k).1 (indAnchor k).2.1 x = if indLit ind k then (indAnchor k).2.2 else x :=
  overlayCell_owned ind k (indAnchor k).1 (indAnchor k).2.1 x (indAnchor k).2.2 (indAnchor_mem k)

/-- A segment's cell shows whether the segment is lit: its character is no space (R152). -/
theorem segLit_eq_of_glyphCell_eq (m n : Byte) (f : SegFlag)
    (h : glyphCell m (segAnchor f).1 (segAnchor f).2 = glyphCell n (segAnchor f).1 (segAnchor f).2) :
    segLit m f = segLit n f := by
  have hchar : f.char ≠ space := by cases f <;> decide
  rw [glyphCell_segAnchor, glyphCell_segAnchor] at h
  exact bool_eq_of_ite_eq hchar h

/-- Settles O33: a mask is its eight flags, and each flag shows in a cell of its own. -/
theorem glyphsAreDistinct : Obligations.GlyphsAreDistinct := by
  intro m n h
  refine byte_ext_segLit m n fun f => segLit_eq_of_glyphCell_eq m n f ?_
  obtain ⟨hr, hc, -⟩ := segAnchor_bounds f
  rw [← glyph_get m _ _ hr hc, ← glyph_get n _ _ hr hc, h]

/-- Equal frames are drawn from equal masks: each segment's cell shows through the overlay. -/
theorem masks_eq_of_frameOf_eq {masks masks' : Vector Byte npos} {ind ind' : Byte}
    (h : frameOf masks ind = frameOf masks' ind') : masks = masks' := by
  refine Vector.ext fun i hi => byte_ext_segLit _ _ fun f => segLit_eq_of_glyphCell_eq _ _ f ?_
  obtain ⟨hr, hc, hshown⟩ := segAnchor_bounds f
  have hcol := col_add_lt_frameW ⟨i, hi⟩ _ hc
  have hcell : (frameOf masks ind)[(segAnchor f).1][col ⟨i, hi⟩ + (segAnchor f).2] =
      (frameOf masks' ind')[(segAnchor f).1][col ⟨i, hi⟩ + (segAnchor f).2] := by rw [h]
  rw [frameOf_get _ _ _ _ hr hcol, frameOf_get _ _ _ _ hr hcol, drawnCell_position _ _ _ _ _ hc hshown,
    drawnCell_position _ _ _ _ _ hc hshown] at hcell
  exact hcell

/-- Equal frames are drawn from the same indicators: each indicator's cell is blank before the overlay. -/
theorem indLit_eq_of_frameOf_eq {masks masks' : Vector Byte npos} {ind ind' : Byte}
    (h : frameOf masks ind = frameOf masks' ind') (k : Indicator) : indLit ind k = indLit ind' k := by
  have hchar : (indAnchor k).2.2 ≠ space := by cases k <;> decide
  obtain ⟨hr, hc⟩ := indAnchor_bounds k
  have hcell : (frameOf masks ind)[(indAnchor k).1][(indAnchor k).2.1] =
      (frameOf masks' ind')[(indAnchor k).1][(indAnchor k).2.1] := by rw [h]
  rw [frameOf_get _ _ _ _ hr hc, frameOf_get _ _ _ _ hr hc, overlayCell_indAnchor,
    overlayCell_indAnchor, composeCell_indAnchor, composeCell_indAnchor] at hcell
  exact bool_eq_of_ite_eq hchar hcell

/-! ## Equal flags, equal bytes, equal named bits -/

theorem lit_iff_test (m : Memory) (e : MapEntry) : Lit m e ↔ test m e = true := (test_eq_true_iff m e).symm

/-- Two buffers have the same flags exactly when they decode to the same latches. -/
theorem sameFlags_iff (cfg : Config) (m n : Memory) : SameFlags cfg m n ↔
    decodeMasks cfg.segmap m = decodeMasks cfg.segmap n ∧ decodeInd cfg.indmap m = decodeInd cfg.indmap n := by
  simp only [SameFlags, lit_iff_test, ← Bool.eq_iff_iff]
  constructor
  · rintro ⟨hseg, hind⟩
    refine ⟨Vector.ext fun p hp => ?_, decodeInd_congr fun k => hind k.number⟩
    rw [decodeMasks_get _ _ p hp, decodeMasks_get _ _ p hp]
    exact decodePos_congr fun f => hseg ⟨p, hp⟩ f.number
  · rintro ⟨hmask, hind⟩
    refine ⟨fun p f => ?_, fun k => ?_⟩
    · have hpos : decodePos cfg.segmap m p = decodePos cfg.segmap n p := by
        rw [← decodeMasks_get _ _ p.val p.isLt, hmask, decodeMasks_get _ _ p.val p.isLt]
      rw [← getLsbD_decodePos, hpos, getLsbD_decodePos]
    · rw [← getLsbD_decodeInd, hind, getLsbD_decodeInd]

/-- Two RENDERs of one configuration emit the same event exactly when their buffers have the same flags. -/
theorem frameEvent_eq_iff (s x : State) (hx : x.cfg = s.cfg) :
    frameEvent s = frameEvent x ↔ SameFlags s.cfg s.lcdm x.lcdm := by
  rw [sameFlags_iff, frameEvent, frameEvent, hx]
  constructor
  · intro h
    have hframe := serialise_injective _ _ h
    exact ⟨masks_eq_of_frameOf_eq hframe,
      ind_ext_indLit _ _ (decodeInd_top _ _) (decodeInd_top _ _) (indLit_eq_of_frameOf_eq hframe)⟩
  · rintro ⟨hmask, hind⟩
    rw [hmask, hind]

theorem sameFlags_of_sameNamedBits (cfg : Config) (m n : Memory) (h : SameNamedBits cfg m n) :
    SameFlags cfg m n := by
  obtain ⟨hseg, hind⟩ := h
  unfold SameFlags Lit
  exact ⟨fun p f => by rw [hseg p f], fun k => by rw [hind k]⟩

/-- The single bit of a one-hot mask is the same in two bytes when it is set in both or in neither. -/
theorem and_oneHot_eq_of_iff (v w m : Byte) (hm : OneHot m) (h : v &&& m ≠ 0x00#8 ↔ w &&& m ≠ 0x00#8) :
    v &&& m = w &&& m := by
  obtain ⟨i, hi, rfl⟩ := oneHot_eq_twoPow m hm
  rw [← bne_iff_ne, ← bne_iff_ne, and_twoPow_bne_zero _ i hi, and_twoPow_bne_zero _ i hi, ← Bool.eq_iff_iff] at h
  rw [BitVec.and_twoPow, BitVec.and_twoPow, h]

theorem sameNamedBits_of_sameFlags (cfg : Config) (m n : Memory) (hwf : cfg.MapsWF) (h : SameFlags cfg m n) :
    SameNamedBits cfg m n := by
  obtain ⟨⟨-, hseghot, -⟩, -, hindhot, -, -⟩ := hwf
  obtain ⟨hseg, hind⟩ := h
  exact ⟨fun p f => and_oneHot_eq_of_iff _ _ _ (hseghot p f) (hseg p f),
    fun k => and_oneHot_eq_of_iff _ _ _ (hindhot k) (hind k)⟩

theorem sameFlags_of_sameBytes (cfg : Config) (m n : Memory) (h : SameBytes m n) : SameFlags cfg m n := by
  have hread (i : Nat) : m.read i = n.read i := by
    by_cases hi : i < bufLen
    · exact h i hi
    · rw [Memory.read_out_of_range m i hi, Memory.read_out_of_range n i hi]
  unfold SameFlags Lit
  exact ⟨fun p f => by rw [hread], fun k => by rw [hread]⟩

/-- Settles O40: the event is `frameEvent`, which determines the flags and is determined by them
(`frameEvent_eq_iff`); one-bit masks make equal flags equal bits. -/
theorem framesDetermineTheNamedBits : Obligations.FramesDetermineTheNamedBits := by
  intro s x s' x' e e' hx hs' hx' he he'
  obtain rfl := (exec_next_iff .render s s').mp hs'
  obtain rfl := (exec_next_iff .render x x').mp hx'
  obtain rfl := event_of_after_render he
  obtain rfl := event_of_after_render he'
  have hflags := frameEvent_eq_iff s x hx
  exact ⟨hflags, fun hwf => hflags.trans
    ⟨sameNamedBits_of_sameFlags _ _ _ hwf, sameFlags_of_sameNamedBits _ _ _⟩⟩

/-- RENDERs of buffers with the same flags leave the same latches and frame and append the same event. -/
theorem render_eq_of_sameFlags (s x : State) (hx : x.cfg = s.cfg) (h : SameFlags s.cfg s.lcdm x.lcdm) :
    (after .render s).mask = (after .render x).mask ∧ (after .render s).ind = (after .render x).ind ∧
      (after .render s).frame = (after .render x).frame ∧
      ∃ e : List Byte, (after .render s).out = s.out ++ [e] ∧ (after .render x).out = x.out ++ [e] := by
  obtain ⟨hmask, hind⟩ := (sameFlags_iff _ _ _).mp h
  have hmask' : (after .render s).mask = (after .render x).mask := by
    rw [after_render_masks, after_render_masks, hx, hmask]
  have hind' : (after .render s).ind = (after .render x).ind := by
    rw [after_render_ind, after_render_ind, hx, hind]
  refine ⟨hmask', hind', ?frame, frameEvent s, after_render_out s, ?event⟩
  case frame => rw [after_render_frame, after_render_frame, hmask', hind']
  case event => rw [after_render_out, (frameEvent_eq_iff s x hx).mpr h]

/-- Settles O30: equal named bits are equal flags, and a RENDER depends on the flags alone
(`render_eq_of_sameFlags`). -/
theorem unnamedBitsHaveNoEffect : Obligations.UnnamedBitsHaveNoEffect := by
  refine ⟨sameFlags_of_sameNamedBits, fun s x s' x' hx h hs' hx' => ?_⟩
  obtain rfl := (exec_next_iff .render s s').mp hs'
  obtain rfl := (exec_next_iff .render x x').mp hx'
  exact render_eq_of_sameFlags s x hx h

/-- Settles O38: equal bytes are equal flags (`sameFlags_of_sameBytes`). -/
theorem equalBuffersEmitEqualFrames : Obligations.EqualBuffersEmitEqualFrames := by
  intro s x s' x' hx h hs' hx'
  obtain rfl := (exec_next_iff .render s s').mp hs'
  obtain rfl := (exec_next_iff .render x x').mp hx'
  obtain ⟨-, -, -, hevent⟩ := render_eq_of_sameFlags s x hx (sameFlags_of_sameBytes _ _ _ h)
  exact hevent

/-! ## The digit 0 at position 6 -/

/-- The columns `a` to `a + n - 1` of every row. -/
def window (a n : Nat) (fr : Frame) : List (List Byte) := fr.toList.map fun row => (row.toList.drop a).take n

theorem window_congr (a n : Nat) (fr fr' : Frame)
    (h : ∀ (r : Fin frameH) (c : Fin frameW), a ≤ c.val → c.val < a + n → fr[r][c] = fr'[r][c]) :
    window a n fr = window a n fr' := by
  unfold window
  refine List.ext_getElem (by simp) fun r hr _ => ?_
  simp only [List.length_map, Vector.length_toList] at hr
  simp only [List.getElem_map]
  refine List.ext_getElem (by simp) fun c hc _ => ?_
  simp only [List.length_take, List.length_drop, Vector.length_toList] at hc
  simp only [List.getElem_take, List.getElem_drop, Vector.getElem_toList]
  exact h ⟨r, hr⟩ ⟨a + c, by omega⟩ (Nat.le_add_right a c) (by simp only; omega)

/-- No indicator has a cell in columns 8 to 11, so they look the same whatever the indicators are. -/
theorem window_frameOf (masks : Vector Byte npos) (ind : Byte) :
    window 8 4 (frameOf masks ind) = window 8 4 (frameOf masks 0x00#8) := by
  refine window_congr 8 4 _ _ fun r c hlow hhigh => ?_
  have hnot : (r.val, c.val) ∉ indicatorCells := by
    simp only [indicatorCells, List.mem_cons, List.not_mem_nil, Prod.mk.injEq, or_false]
    omega
  have hcell (i : Byte) : (frameOf masks i)[r][c] = composeCell masks r.val c.val :=
    (frameOf_get masks i r.val c.val r.isLt c.isLt).trans (overlayCell_of_not_mem _ _ _ _ hnot)
  rw [hcell, hcell]

/-- The frame of a 0 without its point at position 6. -/
def zeroFrame : Frame := frameOf (singleMask 6 0x3F#8) 0x00#8

theorem window_zeroFrame_digit : window 8 5 zeroFrame =
    [[0x20#8, 0x2D#8, 0x2D#8, 0x20#8, 0x20#8], [0x7C#8, 0x20#8, 0x20#8, 0x7C#8, 0x20#8],
      [0x20#8, 0x20#8, 0x20#8, 0x20#8, 0x20#8], [0x7C#8, 0x20#8, 0x20#8, 0x7C#8, 0x20#8],
      [0x20#8, 0x2D#8, 0x2D#8, 0x20#8, 0x20#8]] := by decide

theorem window_zeroFrame_segments : window 8 4 zeroFrame =
    [[0x20#8, 0x2D#8, 0x2D#8, 0x20#8], [0x7C#8, 0x20#8, 0x20#8, 0x7C#8], [0x20#8, 0x20#8, 0x20#8, 0x20#8],
      [0x7C#8, 0x20#8, 0x20#8, 0x7C#8], [0x20#8, 0x2D#8, 0x2D#8, 0x20#8]] := by decide

theorem zeroFrame_outside : zeroFrame.map (fun row => (row.toList.take 8, row.toList.drop 13)) =
    Vector.replicate frameH (List.replicate 8 0x20#8, List.replicate 30 0x20#8) := by
  rw [← Vector.toList_inj, Vector.toList_map, Vector.toList_replicate]
  decide

/-- The segments A to F make the mask 0x3F (R25). -/
theorem segLit_zeroDigit_iff (f : SegFlag) :
    segLit 0x3F#8 f = true ↔ f ∈ [SegFlag.segA, .segB, .segC, .segD, .segE, .segF] := by
  cases f <;> decide

/-- The six entries are those of the mask 0x3F at position 6. -/
theorem entriesOf_zeroDigit (sm : Segmap) :
    EntriesOf sm (singleMask 6 0x3F#8) [sm[6][0], sm[6][1], sm[6][2], sm[6][3], sm[6][4], sm[6][5]] := by
  refine entriesOf_singleMask sm 6 0x3F#8 _ fun e => ?_
  simp only [segLit_zeroDigit_iff]
  exact List.mem_map (l := [SegFlag.segA, .segB, .segC, .segD, .segE, .segF]) (f := fun f => sm[6][f.number])

/-- Settles O39: the buffer holds the entries of the mask 0x3F at position 6 (`decodePos_of_entriesOf`), so the frame
is `zeroFrame` in columns 8 to 11 (`window_frameOf`), and everywhere when no indicator is lit. -/
theorem sixBitsOfPositionSixRenderZero : Obligations.SixBitsOfPositionSixRenderZero := by
  intro s hwf hread
  have hes := entriesOf_zeroDigit s.cfg.segmap
  have hmask (q : Fin npos) : (after .render s).mask[q] = (singleMask 6 0x3F#8)[q] :=
    (after_render_mask s q).trans (decodePos_of_entriesOf hwf hes hread q)
  have hmasks : (after .render s).mask = singleMask 6 0x3F#8 := Vector.ext fun q hq => hmask ⟨q, hq⟩
  have hframe := after_render_frame s
  rw [hmasks] at hframe
  refine ⟨after .render s, exec_eq_after .render s, ?own, fun q hq => ?other, ?segments, fun him => ?indicators⟩
  case own => exact (hmask 6).trans (singleMask_same 6 _)
  case other => exact (hmask q).trans (singleMask_other 6 q _ hq)
  case segments =>
    rw [hframe]
    exact (window_frameOf _ _).trans window_zeroFrame_segments
  case indicators =>
    have hind : (after .render s).ind = 0x00#8 := decodeInd_of_entriesOf hwf him hes hread
    have hzero : (after .render s).frame = zeroFrame := by rw [hframe, hind, zeroFrame]
    rw [hzero]
    exact ⟨hind, zeroFrame_outside, window_zeroFrame_digit⟩

end Sys2Proof.Proofs.RenderLaws

/-! PROOFS. The assembler's text form: spec/30_encoding.md section 7. -/

namespace Sys2Proof.Proofs.AssemblerText

open Sys2Proof.Machine

/-! ## Numbers -/

theorem parseDec_printIdx (idx : Nat) (h : idx ≤ 15) : parseDec (printIdx idx) = some idx := by
  have hall : ∀ i ∈ List.range 16, parseDec (printIdx i) = some i := by decide
  exact hall idx (List.mem_range.mpr (Nat.lt_succ_of_le h))

theorem hexDigit_digitChar (d : Nat) (h : d < 16) : hexDigit (digitChar d) = some d := by
  have hall : ∀ i ∈ List.range 16, hexDigit (digitChar i) = some i := by decide
  exact hall d (List.mem_range.mpr h)

theorem parseHex_printData (v : Byte) : parseHex (printData v) = some v.toNat := by
  have hv : v.toNat < 256 := v.isLt
  simp only [printData, parseHex, digitsFrom, hexDigit_digitChar (v.toNat / 16) (by omega),
    hexDigit_digitChar (v.toNat % 16) (by omega)]
  congr 1
  omega

/-! ## Characters the printed operands do not hold -/

theorem digitChar_not_mark (d : Nat) : digitChar d ≠ ';' ∧ digitChar d ≠ ' ' ∧ digitChar d ≠ ',' := by
  have hmarks : ∀ c ∈ digitChars, c ≠ ';' ∧ c ≠ ' ' ∧ c ≠ ',' := by simp [digitChars]
  by_cases hd : d < digitChars.length
  · rw [digitChar, List.getD_eq_getElem _ _ hd]
    exact hmarks _ (List.getElem_mem hd)
  · rw [digitChar, List.getD_eq_default _ _ (Nat.not_lt.mp hd)]
    decide

theorem printIdx_ne_nil (idx : Nat) : printIdx idx ≠ [] := by
  unfold printIdx
  split <;> exact List.cons_ne_nil _ _

theorem printIdx_not_mark (idx : Nat) : ∀ c ∈ printIdx idx, c ≠ ';' ∧ c ≠ ' ' ∧ c ≠ ',' := by
  unfold printIdx
  split <;> simp [digitChar_not_mark]

theorem printData_not_mark (v : Byte) : ∀ c ∈ printData v, c ≠ ';' ∧ c ≠ ' ' := by
  simp [printData, digitChar_not_mark]

theorem splitOperands_cons (c : Char) (cs : List Char) (h : c ≠ ',') :
    splitOperands (c :: cs) = (splitOperands cs).map fun r => (c :: r.1, r.2) := by
  rw [splitOperands]
  exact fun _ hcomma _ => h hcomma

/-- The first comma and space end the first operand. -/
theorem splitOperands_append (cs ds : List Char) (h : ∀ c ∈ cs, c ≠ ',') :
    splitOperands (cs ++ [',', ' '] ++ ds) = some (cs, ds) := by
  induction cs with
  | nil => rfl
  | cons c cs ih =>
    have hcs := ih fun d hd => h d (List.mem_cons_of_mem c hd)
    rw [List.cons_append, List.cons_append, splitOperands_cons c _ (h c List.mem_cons_self), hcs]
    rfl

/-! ## The code part of a line -/

/-- A text that holds no semicolon and does not end in a space is the code part of itself, with a comment or without. -/
def IsCode (cs : List Char) : Prop := (∀ c ∈ cs, c ≠ ';') ∧ ∀ c ∈ cs.getLast?, c ≠ ' '

theorem dropWhile_space_reverse (cs : List Char) (h : ∀ c ∈ cs.getLast?, c ≠ ' ') :
    (cs.reverse.dropWhile fun c => c = ' ').reverse = cs := by
  cases hr : cs.reverse with
  | nil => simpa using hr
  | cons c rest =>
    have hlast : c ∈ cs.getLast? := by rw [← List.head?_reverse, hr]; rfl
    rw [List.dropWhile_cons_of_neg (by simpa using h c hlast), ← hr, List.reverse_reverse]

theorem takeWhile_of_isCode (cs : List Char) (h : IsCode cs) : (cs.takeWhile fun c => c ≠ ';') = cs :=
  List.takeWhile_eq_self_iff.mpr fun c hc => decide_eq_true (h.1 c hc)

theorem codePart_of_isCode (cs : List Char) (h : IsCode cs) : codePart cs = cs := by
  rw [codePart, takeWhile_of_isCode cs h, dropWhile_space_reverse cs h.2]

/-- A space and a comment after the code are cut off (R80). -/
theorem codePart_comment (cs comment : List Char) (h : IsCode cs) :
    codePart (cs ++ [' ', ';'] ++ comment) = cs := by
  have htake : ((cs ++ [' ', ';'] ++ comment).takeWhile fun c => c ≠ ';') = cs ++ [' '] := by
    rw [List.append_assoc, List.takeWhile_append_of_pos fun c hc => decide_eq_true (h.1 c hc)]
    rfl
  rw [codePart, htake, List.reverse_append]
  exact dropWhile_space_reverse cs h.2

/-- A beginning without a semicolon and a last part without semicolons and spaces make code. -/
theorem isCode_append (cs ds : List Char) (hcs : ∀ c ∈ cs, c ≠ ';') (hds : ds ≠ [])
    (hmark : ∀ c ∈ ds, c ≠ ';' ∧ c ≠ ' ') : IsCode (cs ++ ds) := by
  refine ⟨fun c hc => ?_, fun c hc => ?_⟩
  · rcases List.mem_append.mp hc with hc | hc
    · exact hcs c hc
    · exact (hmark c hc).1
  · rw [List.getLast?_append_of_ne_nil cs hds] at hc
    exact (hmark c (List.mem_of_getLast? hc)).2

theorem withOperands_no_semicolon (i : Instr) : ∀ c ∈ withOperands i, c ≠ ';' := by
  cases i <;> simp [withOperands, mnemonicChars]

theorem isCode_mnemonicChars (i : Instr) : IsCode (mnemonicChars i) := by
  refine isCode_append [] (mnemonicChars i) (by simp) ?_ ?_ <;> cases i <;> simp [mnemonicChars]

theorem isCode_idxLine (i : Instr) (idx : Nat) : IsCode (withOperands i ++ printIdx idx) :=
  isCode_append _ _ (withOperands_no_semicolon i) (printIdx_ne_nil idx) fun c hc =>
    have ⟨hsemicolon, hspace, _⟩ := printIdx_not_mark idx c hc
    ⟨hsemicolon, hspace⟩

theorem isCode_dataLine (i : Instr) (idx : Nat) (data : Byte) :
    IsCode (withOperands i ++ printIdx idx ++ [',', ' '] ++ printData data) := by
  refine isCode_append _ _ (fun c hc => ?_) (List.cons_ne_nil _ _) (printData_not_mark data)
  have hseparator : ∀ d ∈ [',', ' '], d ≠ ';' := by simp
  obtain (hbegin | hidx) | hend := (List.mem_append.mp hc).imp_left List.mem_append.mp
  · exact withOperands_no_semicolon i c hbegin
  · exact (printIdx_not_mark idx c hidx).1
  · exact hseparator c hend

/-- A printed line is code. -/
theorem isCode_printLine (i : Instr) : IsCode (printLine i) := by
  cases i with
  | lcdwr idx data => exact isCode_dataLine (.lcdwr 0 0) idx data
  | lcdrd idx => exact isCode_idxLine (.lcdrd 0) idx
  | maskrd idx => exact isCode_idxLine (.maskrd 0) idx
  | nop => exact isCode_mnemonicChars .nop
  | indrd => exact isCode_mnemonicChars .indrd
  | decode => exact isCode_mnemonicChars .decode
  | render => exact isCode_mnemonicChars .render

/-! ## The three forms with operands -/

theorem assembleLine_lcdwr (line cs : List Char) (h : codePart line = withOperands (.lcdwr 0 0) ++ cs) :
    assembleLine line = asmIdxData cs := by
  unfold assembleLine
  rw [h]
  rfl

theorem assembleLine_lcdrd (line cs : List Char) (h : codePart line = withOperands (.lcdrd 0) ++ cs) :
    assembleLine line = asmIdx .lcdrd cs := by
  unfold assembleLine
  rw [h]
  rfl

theorem assembleLine_maskrd (line cs : List Char) (h : codePart line = withOperands (.maskrd 0) ++ cs) :
    assembleLine line = asmIdx .maskrd cs := by
  unfold assembleLine
  rw [h]
  rfl

theorem asmIdx_printIdx (f : Nat → Instr) (idx : Nat) (h : idxFits idx = true) :
    asmIdx f (printIdx idx) = .command (f idx) := by
  rw [asmIdx, parseDec_printIdx idx (of_decide_eq_true h)]
  exact if_pos h

theorem asmIdxData_print (idx : Nat) (data : Byte) (h : idxFits idx = true) :
    asmIdxData (printIdx idx ++ [',', ' '] ++ printData data) = .command (.lcdwr idx data) := by
  have hsplit := splitOperands_append (printIdx idx) (printData data) fun c hc =>
    have ⟨_, _, hcomma⟩ := printIdx_not_mark idx c hc
    hcomma
  have hdata : data.toNat ≤ 0xFF := Nat.le_of_lt_succ data.isLt
  simp only [asmIdxData, hsplit, parseDec_printIdx idx (of_decide_eq_true h), parseHex_printData, if_pos h,
    if_pos hdata, BitVec.ofNat_toNat, BitVec.setWidth_eq]

/-- A line whose code part is a printed line assembles to the command. -/
theorem assembleLine_of_codePart (line : List Char) (i : Instr) (hwf : i.wf = true)
    (h : codePart line = printLine i) : assembleLine line = .command i := by
  cases i with
  | lcdwr idx data =>
    rw [assembleLine_lcdwr line (printIdx idx ++ [',', ' '] ++ printData data)
      (by simpa only [printLine, List.append_assoc] using h)]
    exact asmIdxData_print idx data hwf
  | lcdrd idx =>
    rw [assembleLine_lcdrd line _ h]
    exact asmIdx_printIdx .lcdrd idx hwf
  | maskrd idx =>
    rw [assembleLine_maskrd line _ h]
    exact asmIdx_printIdx .maskrd idx hwf
  | nop | indrd | decode | render =>
    unfold assembleLine
    rw [h]
    rfl

/-- Settles O44: the code part of both lines is the printed line (`codePart_of_isCode`, `codePart_comment`), and the
assembler looks at the code part alone. -/
theorem assemblerReadsItsOwnLines : Obligations.AssemblerReadsItsOwnLines := fun i comment hwf =>
  ⟨assembleLine_of_codePart _ i hwf (codePart_of_isCode _ (isCode_printLine i)),
    assembleLine_of_codePart _ i hwf (codePart_comment _ comment (isCode_printLine i))⟩

end Sys2Proof.Proofs.AssemblerText

/-! PROOFS. The harness around the block: spec/60_exceptions.md sections 5 and 6, spec/70_reset_and_hazards.md
sections 2 and 3. -/

namespace Sys2Proof.Proofs.HarnessRuns

open Sys2Proof.Machine Sys2Proof.Claims Sys2Proof.Proofs.Writers Sys2Proof.Proofs.Invariant

/-! ## What one event can do -/

/-- A command of the firmware or of an observer runs in a phase that stays. -/
def RunsCommand (i : Instr) (allowed : Bool) (x y : Harness) : Prop :=
  allowed = true ∧ i ≠ .render ∧ y.phase = x.phase ∧ y.block = after i x.block

/-- The phase goes from one to another and the block stays as it is. -/
def Moves (p q : Phase) (x y : Harness) : Prop := x.phase = p ∧ y.phase = q ∧ y.block = x.block

/-- What an event leaves, from the phases in which it can happen. -/
def Effect (x y : Harness) : HEvent → Prop
  | .start => x.phase = .notStarted ∧ y.phase = .initializing ∧ y.block = State.resetWith x.block.cfg
  | .firmware i => RunsCommand i x.phase.firmwareRuns x y
  | .observe i => RunsCommand i x.phase.running x y
  | .capture => Moves .initializing (.looping .awaiting) x y
  | .entryReturned => Moves .initializing .terminated x y
  | .beginTick clockOk => Moves (.looping .awaiting) (if clockOk then .looping .drawing else .terminated) x y
  | .drawReturned => Moves (.looping .drawing) (.looping .drawn) x y
  | .render => x.phase = .looping .drawn ∧ y.phase = .looping .polling ∧ y.block = after .render x.block
  | .endTick quit => Moves (.looping .polling) (if quit then .terminated else .looping .awaiting) x y

theorem run_eq (i : Instr) (p : Phase) (h : Harness) : h.run i p = some { phase := p, block := after i h.block } := by
  rw [Harness.run, exec_eq_after]

theorem ne_render_of_firmwarePort (i : Instr) (h : firmwarePort i = true) : i ≠ .render := by
  rintro rfl
  cases h

theorem ne_render_of_harnessObserves (i : Instr) (h : harnessObserves i = true) : i ≠ .render := by
  rintro rfl
  cases h

/-- A guarded event happens only where its guard holds, and then leaves what it says. -/
theorem of_guarded {p : Prop} [Decidable p] {a : Option Harness} {y : Harness} (h : (if p then a else none) = some y) :
    p ∧ a = some y := Option.ite_none_right_eq_some.mp h

theorem moves_of_guarded {p q : Phase} {x y : Harness}
    (h : (if x.phase = p then some { x with phase := q } else none) = some y) : Moves p q x y := by
  obtain ⟨hp, hy⟩ := of_guarded h
  obtain rfl := Option.some.inj hy
  exact ⟨hp, rfl, rfl⟩

theorem runsCommand_of_guarded {i : Instr} {allowed port : Bool} {x y : Harness} (hport : port = true → i ≠ .render)
    (h : (if allowed && port then x.run i x.phase else none) = some y) : RunsCommand i allowed x y := by
  obtain ⟨hguard, hy⟩ := of_guarded h
  obtain ⟨hallowed, hp⟩ := Bool.and_eq_true_iff.mp hguard
  rw [run_eq] at hy
  obtain rfl := Option.some.inj hy
  exact ⟨hallowed, hport hp, rfl, rfl⟩

theorem effect_of_on {e : HEvent} {x y : Harness} (h : x.on e = some y) : Effect x y e := by
  cases e with
  | start =>
    obtain ⟨hp, hy⟩ := of_guarded h
    obtain rfl := Option.some.inj hy
    exact ⟨hp, rfl, rfl⟩
  | firmware i => exact runsCommand_of_guarded (ne_render_of_firmwarePort i) h
  | observe i => exact runsCommand_of_guarded (ne_render_of_harnessObserves i) h
  | capture => exact moves_of_guarded h
  | entryReturned => exact moves_of_guarded h
  | beginTick clockOk => exact moves_of_guarded h
  | drawReturned => exact moves_of_guarded h
  | render =>
    obtain ⟨hp, hy⟩ := of_guarded h
    rw [run_eq] at hy
    obtain rfl := Option.some.inj hy
    exact ⟨hp, rfl, rfl⟩
  | endTick quit => exact moves_of_guarded h

/-! ## Runs -/

theorem events_concat (es : List HEvent) (e : HEvent) (x : Harness) :
    Harness.events (es ++ [e]) x = (Harness.events es x).bind (Harness.on e) := by
  induction es generalizing x with
  | nil =>
    rw [List.nil_append, Harness.events, Harness.events, Option.bind_some]
    cases x.on e <;> rfl
  | cons d es ih =>
    rw [List.cons_append, Harness.events, Harness.events]
    cases hd : x.on d with
    | none => rfl
    | some z => exact ih z

/-- What holds before any event and is kept by each event holds after every run, told with the events of the run. -/
theorem run_induction {P : List HEvent → Harness → Prop} {x : Harness} (hinit : P [] x)
    (hstep : ∀ (past : List HEvent) (e : HEvent) (y z : Harness), P past y → Effect y z e → P (past ++ [e]) z)
    (es : List HEvent) (y : Harness) (h : Harness.events es x = some y) : P es y := by
  induction es using List.reverseRecOn generalizing y with
  | nil =>
    obtain rfl := Option.some.inj h
    exact hinit
  | append_singleton past e ih =>
    rw [events_concat] at h
    obtain ⟨z, hz, hon⟩ := Option.bind_eq_some_iff.mp h
    exact hstep past e z y (ih z hz) (effect_of_on hon)

theorem out_of_runsCommand {i : Instr} {allowed : Bool} {x y : Harness} (h : RunsCommand i allowed x y) :
    y.block.out = x.block.out := by
  obtain ⟨-, hi, -, hblock⟩ := h
  rw [hblock, (after_frame_out i x.block hi).2]

/-! ## Events and phases -/

/-- Nothing happens after termination (R212; for an abort, log entry 10). -/
theorem not_terminated_of_effect {e : HEvent} {x y : Harness} (h : Effect x y e) : x.phase ≠ .terminated := by
  intro hp
  cases e with
  | firmware i | observe i =>
    obtain ⟨hallowed, -, -, -⟩ := h
    rw [hp] at hallowed
    cases hallowed
  | _ =>
    obtain ⟨hphase, -, -⟩ := h
    rw [hp] at hphase
    cases hphase

/-- An event that cannot leave a harness from `x` does not happen. -/
theorem on_eq_none {e : HEvent} {x : Harness} (h : ∀ y : Harness, ¬ Effect x y e) : x.on e = none :=
  Option.eq_none_iff_forall_ne_some.mpr fun y hy => h y (effect_of_on hy)

/-- Settles O47: each clause by the phases in which an event can happen (`effect_of_on`). -/
theorem harnessKeepsRenderOutsideDraw : Obligations.HarnessKeepsRenderOutsideDraw := by
  intro x i e
  refine ⟨fun hp => on_eq_none fun y hy => not_terminated_of_effect hy hp,
    fun hp => on_eq_none fun y ⟨hdrawn, _⟩ => ?drawing, fun hp => on_eq_none fun y ⟨hallowed, _⟩ => ?drawn,
    fun hsome => ?render⟩
  case drawing =>
    rw [hp] at hdrawn
    cases hdrawn
  case drawn =>
    rw [hp] at hallowed
    cases hallowed
  case render =>
    obtain ⟨y, hy⟩ := Option.ne_none_iff_exists'.mp hsome
    exact (effect_of_on hy).1

/-! ## No frame before the capture -/

/-- The phases before the continuation is captured. -/
def Starting (p : Phase) : Prop := p = .notStarted ∨ p = .initializing

/-- A harness comes to a starting phase by the reset, or stays in it while a command runs that emits nothing. -/
theorem out_of_starting {e : HEvent} {x y : Harness} (h : Effect x y e) (hy : Starting y.phase) :
    y.block.out = [] ∨ Starting x.phase ∧ y.block.out = x.block.out := by
  unfold Starting at hy ⊢
  cases e with
  | start =>
    obtain ⟨-, -, hblock⟩ := h
    exact .inl (by rw [hblock, resetWith_out])
  | firmware i | observe i =>
    have hout := out_of_runsCommand h
    obtain ⟨-, -, hphase, -⟩ := h
    exact .inr ⟨hphase ▸ hy, hout⟩
  | beginTick b | endTick b =>
    obtain ⟨-, hphase, -⟩ := h
    cases b <;> simp [hphase] at hy
  | capture | entryReturned | drawReturned | render =>
    obtain ⟨-, hphase, -⟩ := h
    simp [hphase] at hy

/-- `OUT` is empty before the capture and after a return of the entry point, which terminates. -/
structure NoFrameYet (past : List HEvent) (x : Harness) : Prop where
  starting : Starting x.phase → x.block.out = []
  returned : HEvent.entryReturned ∈ past → x.phase = .terminated ∧ x.block.out = []

theorem noFrameYet_step (past : List HEvent) (e : HEvent) (x y : Harness) (hx : NoFrameYet past x)
    (h : Effect x y e) : NoFrameYet (past ++ [e]) y where
  starting hy := by
    rcases out_of_starting h hy with hempty | ⟨hstarting, hout⟩
    · exact hempty
    · rw [hout, hx.starting hstarting]
  returned hmem := by
    rcases List.mem_append.mp hmem with hpast | hlast
    · exact absurd (hx.returned hpast).1 (not_terminated_of_effect h)
    · obtain rfl := List.mem_singleton.mp hlast
      obtain ⟨hphase, hterminated, hblock⟩ := h
      exact ⟨hterminated, by rw [hblock, hx.starting (.inr hphase)]⟩

theorem noFrameYet_initial (cfg : Config) : NoFrameYet [] (Harness.initial cfg) where
  starting _ := rfl
  returned hmem := absurd hmem List.not_mem_nil

/-- Settles O45: `NoFrameYet` holds in every run. -/
theorem noFrameBeforeCapture : Obligations.NoFrameBeforeCapture := by
  intro cfg es h hrun
  have hinv := run_induction (noFrameYet_initial cfg) noFrameYet_step es h hrun
  rintro (hp | hp | hmem)
  · exact hinv.starting (.inl hp)
  · exact hinv.starting (.inr hp)
  · exact (hinv.returned hmem).2

/-! ## Frames and ticks -/

/-- The events of `OUT` are the RENDERs issued: one for each ended tick, one more in the poll of a tick. -/
def CountsFrames (past : List HEvent) (x : Harness) : Prop :=
  x.block.out.length = past.count .render ∧
    x.block.out.length = past.countP isEndTick + if x.phase = .looping .polling then 1 else 0

/-- An event that neither renders nor ends a tick keeps the count, when it neither enters nor leaves the poll. -/
theorem countsFrames_of_quiet {past : List HEvent} {e : HEvent} {x y : Harness} (h : CountsFrames past x)
    (hrender : e ≠ .render) (hend : isEndTick e = false) (hout : y.block.out = x.block.out)
    (hpoll : y.phase = .looping .polling ↔ x.phase = .looping .polling) : CountsFrames (past ++ [e]) y := by
  have hcount : (past ++ [e]).count .render = past.count .render := by
    rw [List.count_append, List.count_singleton, if_neg (by simpa using hrender), Nat.add_zero]
  have hcountP : (past ++ [e]).countP isEndTick = past.countP isEndTick := by
    rw [List.countP_append, List.countP_singleton, hend, if_neg Bool.false_ne_true, Nat.add_zero]
  unfold CountsFrames
  rw [hcount, hcountP, hout, if_congr hpoll rfl rfl]
  exact h

/-- A RENDER adds its frame and begins the poll. -/
theorem countsFrames_render {past : List HEvent} {x y : Harness} (hx : CountsFrames past x)
    (h : Effect x y .render) : CountsFrames (past ++ [.render]) y := by
  obtain ⟨hrenders, hticks⟩ := hx
  obtain ⟨hdrawn, hpolling, hblock⟩ := h
  have hlength : y.block.out.length = x.block.out.length + 1 := by
    rw [hblock, after_render_out, List.length_append, List.length_singleton]
  rw [hdrawn, if_neg (by decide), Nat.add_zero] at hticks
  unfold CountsFrames
  rw [hlength, hpolling, if_pos rfl, List.count_append, List.count_singleton_self, List.countP_append,
    List.countP_singleton, isEndTick, if_neg Bool.false_ne_true, Nat.add_zero]
  exact ⟨congrArg (· + 1) hrenders, congrArg (· + 1) hticks⟩

/-- The end of a tick takes the poll's frame into the ended ticks. -/
theorem countsFrames_endTick {past : List HEvent} {quit : Bool} {x y : Harness} (hx : CountsFrames past x)
    (h : Effect x y (.endTick quit)) : CountsFrames (past ++ [.endTick quit]) y := by
  obtain ⟨hrenders, hticks⟩ := hx
  obtain ⟨hpolling, hphase, hblock⟩ := h
  have hleft : y.phase ≠ .looping .polling := by rw [hphase]; cases quit <;> decide
  rw [hpolling, if_pos rfl] at hticks
  unfold CountsFrames
  rw [hblock, if_neg hleft, List.count_append, List.count_singleton, if_neg (by simp), List.countP_append,
    List.countP_singleton, isEndTick, if_pos rfl]
  exact ⟨hrenders, hticks⟩

/-- Every event keeps the count; the reset of `start` finds an empty trace. -/
theorem countsFrames_step (past : List HEvent) (e : HEvent) (x y : Harness) (hcount : CountsFrames past x)
    (hempty : NoFrameYet past x) (h : Effect x y e) : CountsFrames (past ++ [e]) y := by
  cases e with
  | render => exact countsFrames_render hcount h
  | endTick quit => exact countsFrames_endTick hcount h
  | firmware i | observe i =>
    have hout := out_of_runsCommand h
    obtain ⟨-, -, hphase, -⟩ := h
    exact countsFrames_of_quiet hcount HEvent.noConfusion rfl hout (by rw [hphase])
  | start =>
    obtain ⟨hx, hy, hblock⟩ := h
    have hout : y.block.out = x.block.out := by rw [hblock, resetWith_out, hempty.starting (.inl hx)]
    exact countsFrames_of_quiet hcount HEvent.noConfusion rfl hout (by simp [hx, hy])
  | beginTick clockOk =>
    obtain ⟨hx, hy, hblock⟩ := h
    refine countsFrames_of_quiet hcount HEvent.noConfusion rfl (by rw [hblock]) ?_
    cases clockOk <;> simp [hx, hy]
  | capture | entryReturned | drawReturned =>
    obtain ⟨hx, hy, hblock⟩ := h
    exact countsFrames_of_quiet hcount HEvent.noConfusion rfl (by rw [hblock]) (by simp [hx, hy])

/-- Settles O46: the count holds in every run, together with `NoFrameYet`. -/
theorem oneFramePerTick : Obligations.OneFramePerTick := by
  intro cfg es h hrun
  have hinv := run_induction (P := fun past x => CountsFrames past x ∧ NoFrameYet past x)
    ⟨⟨rfl, rfl⟩, noFrameYet_initial cfg⟩
    (fun past e x y ⟨hcount, hempty⟩ heffect =>
      ⟨countsFrames_step past e x y hcount hempty heffect, noFrameYet_step past e x y hempty heffect⟩) es h hrun
  exact hinv.1

end Sys2Proof.Proofs.HarnessRuns
